-- ==== Sys2Proof/Word.lean ====
section
/-! DEFINITION. The two bit-vector types of the machine (spec 00_scope R5, R9). -/

namespace Sys2Proof

/-- A byte of memory, an opcode or a register operand: 8 bits (R5). -/
abbrev Byte := BitVec 8

/-- A register value, literal, address operand or memory word: 16 bits, unsigned (R5, R9). -/
abbrev Word := BitVec 16

end Sys2Proof
end

