-- ==== Sys2Proof/Machine/Bytes.lean ====
section
/-! DEFINITION. The byte order: a word is two bytes, high byte first (spec 00_scope R9, 20_memory R52, 30_encoding R82). -/

namespace Sys2Proof

/-- `v[15:8]` (R9). -/
def Word.hi (v : Word) : Byte := v.extractLsb' 8 8

/-- `v[7:0]` (R9). -/
def Word.lo (v : Word) : Byte := v.extractLsb' 0 8

/-- `h ++ l` = `h * 256 + l` (R9): the byte at the lower address is the high byte (R52, R82). -/
def Word.ofBytes (h l : Byte) : Word := h ++ l

end Sys2Proof
end

