-- ==== Sys2Proof/Config.lean ====
section
/-! DEFINITION. The names the parameters are indexed by, the parameters of the step function (spec 00_scope R6, R8;
92 D1, D3, D11) and the free values (values the spec leaves unspecified). The reference values of the parameters stand
in Machine/Reference.lean. -/

namespace Sys2Proof

/-- The twelve registers, in the declaration order of 10_state R20. Their numbers are `Reg.index` (Decode.lean). -/
inductive Reg where
  | ip | acc | r1 | r2 | r3 | r4 | r5 | r6 | r7 | r8 | sp | fp
  deriving DecidableEq, Repr

/-- The ten operations of the closed instruction table (30_encoding R85), one per mnemonic. -/
inductive Op where
  | movLitReg | movRegReg | movRegMem | movMemReg | addRegReg | jmpNotEq | pshLit | pshReg | pop | calLit
  deriving DecidableEq, Repr

/-- The parameter `OPC`: the opcode byte of each of the ten mnemonics (R6, D1). -/
structure Opc where
  movLitReg : Byte
  movRegReg : Byte
  movRegMem : Byte
  movMemReg : Byte
  addRegReg : Byte
  jmpNotEq : Byte
  pshLit : Byte
  pshReg : Byte
  pop : Byte
  calLit : Byte
  deriving DecidableEq, Repr

/-- The parameter "fault codes": the number FAULT_CODE holds for each error (R6, D11); 0 means no fault (R30). -/
structure FaultCodes where
  outOfBounds : BitVec 2
  unknownRegister : BitVec 2
  invalidOpcode : BitVec 2
  deriving DecidableEq, Repr

/-- What is fixed for one core from reset to the next reset (R6): the memory size `N`, the opcode assignment and the
fault codes. `Config.wf` (WellFormed.lean) says which values the spec admits. -/
structure Config where
  size : Nat
  opc : Opc
  codes : FaultCodes
  deriving DecidableEq, Repr

/-- FREE VALUE (log 4): what FAULT_INFO.width holds after InvalidOpcode, where 10_state R32 calls it meaningless. -/
opaque Config.freeFaultWidth : Nat → BitVec 2

/-- FREE VALUE (log 4): what FAULT_INFO.opcode holds after OutOfBounds, where 10_state R32 calls it meaningless. -/
opaque Config.freeFaultOpcode : Nat → Byte

end Sys2Proof
end

