-- ==== Sys2Proof/Machine/Reference.lean ====
section
/-! DEFINITION. The reference values of the parameters (spec 00_scope R6; 30_encoding R85; 60_exceptions R170), each in
a definition of its own. The semantics of no instruction depends on them (D1); log 1 and log 2. -/

namespace Sys2Proof

/-- PRESUMED (the spec's own G1, log 2): the reference opcode bytes of R85, which the spec supplies from general
knowledge. -/
def Opc.reference : Opc where
  movLitReg := 0x10
  movRegReg := 0x11
  movRegMem := 0x12
  movMemReg := 0x13
  addRegReg := 0x14
  jmpNotEq := 0x15
  pshLit := 0x17
  pshReg := 0x18
  pop := 0x1A
  calLit := 0x5E

/-- The codes 1, 2, 3 of R170 (the spec's decision D11). -/
def FaultCodes.reference : FaultCodes where
  outOfBounds := 1
  unknownRegister := 2
  invalidOpcode := 3

/-- N = 65536, R85's opcodes, R170's codes (R6, column "reference value"). -/
def Config.reference : Config where
  size := 65536
  opc := Opc.reference
  codes := FaultCodes.reference

end Sys2Proof
end

