-- ==== Sys2Proof/Syntax.lean ====
section
/-! DEFINITION. The instructions: one constructor per row of spec/opcode_table.json, operands in encoding order
(spec 30_encoding R85). A register operand is the register its byte names (R83, R104), not the raw byte. -/

namespace Sys2Proof

inductive Instr where
  /-- MOV_LIT_REG, R120: literal, destination. -/
  | movLitReg (lit : Word) (dst : Reg)
  /-- MOV_REG_REG, R121: source, destination. -/
  | movRegReg (src dst : Reg)
  /-- MOV_REG_MEM, R122: source, address. -/
  | movRegMem (src : Reg) (addr : Word)
  /-- MOV_MEM_REG, R123: address, destination. -/
  | movMemReg (addr : Word) (dst : Reg)
  /-- ADD_REG_REG, R130: the two addends. -/
  | addRegReg (a b : Reg)
  /-- JMP_NOT_EQ, R140: literal, target address. -/
  | jmpNotEq (lit target : Word)
  /-- PSH_LIT, R150: literal. -/
  | pshLit (lit : Word)
  /-- PSH_REG, R151: source. -/
  | pshReg (src : Reg)
  /-- POP, R152: destination. -/
  | pop (dst : Reg)
  /-- CAL_LIT, R160: target address. -/
  | calLit (target : Word)
  deriving DecidableEq, Repr

end Sys2Proof
end

