-- ==== Sys2Proof/Decode.lean ====
section
/-! DEFINITION. Decoding and encoding (spec 30_encoding R80 to R90). Decoding is sequential (R87): one decoder,
`decodeFrom`, is written over any source of bytes; here it reads a list of bytes (`decode`), and the machine's fetch
(Machine/Operands.lean) is the same decoder reading memory at `ip`. Total on any bytes, rejecting by name. -/

namespace Sys2Proof

/-! ### Registers (R20, R83, R84) -/

/-- The register count (R5, R20). -/
def registerCount : Nat := 12

/-- The registers in index order (R20, D2). -/
def Reg.all : List Reg := [.ip, .acc, .r1, .r2, .r3, .r4, .r5, .r6, .r7, .r8, .sp, .fp]

/-- A register's index: its position in the declaration order, counted from 0 (R20, D2). -/
def Reg.index : Reg → Nat
  | .ip => 0
  | .acc => 1
  | .r1 => 2
  | .r2 => 3
  | .r3 => 4
  | .r4 => 5
  | .r5 => 6
  | .r6 => 7
  | .r7 => 8
  | .r8 => 9
  | .sp => 10
  | .fp => 11

/-- A register's byte offset in the 24-byte register block, `index * 2` (R20, R65). -/
def Reg.byteOffset (r : Reg) : Nat := r.index * 2

/-- A register operand byte `b` selects index `b mod 12`; every byte is legal (R83, R90). -/
def Reg.ofByte (b : Byte) : Reg := Reg.all.getD (b.toNat % registerCount) .ip

/-- The canonical encoding of a register operand is its own index (R84). -/
def Reg.toByte (r : Reg) : Byte := BitVec.ofNat 8 r.index

/-! ### The opcode map and the formats (R81, R85) -/

/-- The ten operations in the document's order (R85). -/
def Op.all : List Op :=
  [.movLitReg, .movRegReg, .movRegMem, .movMemReg, .addRegReg, .jmpNotEq, .pshLit, .pshReg, .pop, .calLit]

/-- `OPC[m]` (R6). -/
def Opc.byte (opc : Opc) : Op → Byte
  | .movLitReg => opc.movLitReg
  | .movRegReg => opc.movRegReg
  | .movRegMem => opc.movRegMem
  | .movMemReg => opc.movMemReg
  | .addRegReg => opc.addRegReg
  | .jmpNotEq => opc.jmpNotEq
  | .pshLit => opc.pshLit
  | .pshReg => opc.pshReg
  | .pop => opc.pop
  | .calLit => opc.calLit

/-- The dispatch table: the operation an opcode byte selects, if any (R85, R105). -/
def Opc.lookup (opc : Opc) (b : Byte) : Option Op := Op.all.find? fun op => opc.byte op == b

/-- The two kinds of operand (R80): a two-byte literal or address, and a one-byte register operand. -/
inductive OperandKind where
  | imm16 | reg
  deriving DecidableEq, Repr

/-- The six formats (R81). -/
inductive Format where
  | ir | rr | ri | ii | i | r
  deriving DecidableEq, Repr

/-- The operands of a format, in encoding order (R81). -/
def Format.operands : Format → List OperandKind
  | .ir => [.imm16, .reg]
  | .rr => [.reg, .reg]
  | .ri => [.reg, .imm16]
  | .ii => [.imm16, .imm16]
  | .i => [.imm16]
  | .r => [.reg]

/-- The format of an operation: the opcode alone selects it (R85, R86). -/
def Op.format : Op → Format
  | .movLitReg => .ir
  | .movRegReg => .rr
  | .movRegMem => .ri
  | .movMemReg => .ir
  | .addRegReg => .rr
  | .jmpNotEq => .ii
  | .pshLit => .i
  | .pshReg => .r
  | .pop => .r
  | .calLit => .i

/-- How many bytes an operand takes, which is also the width of the access that fetches it (R59, R80). -/
def OperandKind.width : OperandKind → Nat
  | .imm16 => 2
  | .reg => 1

/-- The (offset from the opcode's address, width) of each operand fetch, the first operand being at offset `k` (R80). -/
def operandFetches : Nat → List OperandKind → List (Nat × Nat)
  | _, [] => []
  | k, o :: os => (k, o.width) :: operandFetches (k + o.width) os

/-- Every fetch an instruction makes, the opcode's first (R80, R87). -/
def Op.fetches (op : Op) : List (Nat × Nat) := (0, 1) :: operandFetches 1 op.format.operands

/-- The length `L` in bytes (R80). -/
def Op.length (op : Op) : Nat := 1 + (op.format.operands.map OperandKind.width).sum

/-- The operation an instruction performs. -/
def Instr.op : Instr → Op
  | .movLitReg _ _ => .movLitReg
  | .movRegReg _ _ => .movRegReg
  | .movRegMem _ _ => .movRegMem
  | .movMemReg _ _ => .movMemReg
  | .addRegReg _ _ => .addRegReg
  | .jmpNotEq _ _ => .jmpNotEq
  | .pshLit _ => .pshLit
  | .pshReg _ => .pshReg
  | .pop _ => .pop
  | .calLit _ => .calLit

/-- The length of an instruction in bytes (R80, R86). -/
def Instr.length (i : Instr) : Nat := i.op.length

/-! ### The sequential decoder (R87, R101) -/

/-- What fetching from a source leaves: a value and the source after it, or an error and the source as the completed
fetches left it (a fetch that fails consumes nothing, R102, R103). -/
inductive Fetched (ε σ α : Type) where
  | ok (a : α) (rest : σ)
  | fail (e : ε) (rest : σ)
  deriving DecidableEq, Repr

/-- Go on with what was fetched, or stop at the first failure (R175). -/
def Fetched.andThen {ε σ α β : Type} (r : Fetched ε σ α) (f : α → σ → Fetched ε σ β) : Fetched ε σ β :=
  match r with
  | .ok a rest => f a rest
  | .fail e rest => .fail e rest

/-- `FetchReg()`: one byte, resolved to a register (R104). -/
def fetchReg {ε σ : Type} (fetch8 : σ → Fetched ε σ Byte) (q : σ) : Fetched ε σ Reg :=
  (fetch8 q).andThen fun b q => .ok (Reg.ofByte b) q

/-- The decode phase of each handler: one fetch per operand, in operand order (R85, R101). -/
def decodeOperands {ε σ : Type} (fetch8 : σ → Fetched ε σ Byte) (fetch16 : σ → Fetched ε σ Word) (op : Op) (q : σ) :
    Fetched ε σ Instr :=
  match op with
  | .movLitReg => (fetch16 q).andThen fun lit q => (fetchReg fetch8 q).andThen fun d q => .ok (.movLitReg lit d) q
  | .movRegReg => (fetchReg fetch8 q).andThen fun s q => (fetchReg fetch8 q).andThen fun d q => .ok (.movRegReg s d) q
  | .movRegMem => (fetchReg fetch8 q).andThen fun s q => (fetch16 q).andThen fun a q => .ok (.movRegMem s a) q
  | .movMemReg => (fetch16 q).andThen fun a q => (fetchReg fetch8 q).andThen fun d q => .ok (.movMemReg a d) q
  | .addRegReg => (fetchReg fetch8 q).andThen fun a q => (fetchReg fetch8 q).andThen fun b q => .ok (.addRegReg a b) q
  | .jmpNotEq => (fetch16 q).andThen fun lit q => (fetch16 q).andThen fun t q => .ok (.jmpNotEq lit t) q
  | .pshLit => (fetch16 q).andThen fun lit q => .ok (.pshLit lit) q
  | .pshReg => (fetchReg fetch8 q).andThen fun s q => .ok (.pshReg s) q
  | .pop => (fetchReg fetch8 q).andThen fun d q => .ok (.pop d) q
  | .calLit => (fetch16 q).andThen fun t q => .ok (.calLit t) q

/-- The opcode, then its operands; a byte with no entry in the table is `illegal` (R87, R89, R100, R105). -/
def decodeFrom {ε σ : Type} (fetch8 : σ → Fetched ε σ Byte) (fetch16 : σ → Fetched ε σ Word) (illegal : Byte → σ → ε)
    (opc : Opc) (p : σ) : Fetched ε σ Instr :=
  (fetch8 p).andThen fun b q =>
    match opc.lookup b with
    | none => .fail (illegal b p) q
    | some op => decodeOperands fetch8 fetch16 op q

/-! ### Decoding a list of bytes -/

/-- Why a list of bytes is no instruction. -/
inductive Reject where
  /-- The bytes end inside the instruction. -/
  | truncated
  /-- The opcode byte is not one of the ten (R89). -/
  | invalidOpcode (b : Byte)
  deriving DecidableEq, Repr

def takeByte : List Byte → Fetched Reject (List Byte) Byte
  | b :: bs => .ok b bs
  | [] => .fail .truncated []

def takeWord : List Byte → Fetched Reject (List Byte) Word
  | h :: l :: bs => .ok (Word.ofBytes h l) bs
  | bs => .fail .truncated bs

/-- The instruction at the head of a list of bytes, and the rest of the list (R80 to R89). -/
def decode (opc : Opc) (bytes : List Byte) : Fetched Reject (List Byte) Instr :=
  decodeFrom takeByte takeWord (fun b _ => .invalidOpcode b) opc bytes

/-! ### The encoder (R81, R84, R85) -/

/-- The bytes of an instruction, register operands in their canonical encoding. -/
def encode (opc : Opc) : Instr → List Byte
  | .movLitReg lit d => [opc.movLitReg, Word.hi lit, Word.lo lit, d.toByte]
  | .movRegReg s d => [opc.movRegReg, s.toByte, d.toByte]
  | .movRegMem s a => [opc.movRegMem, s.toByte, Word.hi a, Word.lo a]
  | .movMemReg a d => [opc.movMemReg, Word.hi a, Word.lo a, d.toByte]
  | .addRegReg a b => [opc.addRegReg, a.toByte, b.toByte]
  | .jmpNotEq lit t => [opc.jmpNotEq, Word.hi lit, Word.lo lit, Word.hi t, Word.lo t]
  | .pshLit lit => [opc.pshLit, Word.hi lit, Word.lo lit]
  | .pshReg s => [opc.pshReg, s.toByte]
  | .pop d => [opc.pop, d.toByte]
  | .calLit t => [opc.calLit, Word.hi t, Word.lo t]

/-! ### The opcode table's numbering -/

/-- The longest instruction, in bytes (R80). -/
def maxLength : Nat := 5

/-- The bytes of a table row whose bits are `w`, then zeros up to the longest instruction. spec/opcode_table.json
reads a row as ONE number of `nbits` bits whose most significant byte is byte 0, the opcode (the `note` of each row;
log 6). -/
def tableBytes (nbits w : Nat) : List Byte :=
  let n := (nbits + 7) / 8
  (List.range n).map (fun k => BitVec.ofNat 8 (w >>> (8 * (n - 1 - k)))) ++ List.replicate (maxLength - n) 0

/-- The instruction the decoder reads from an instruction whose bits are `w`, numbered as the table numbers them, with
the reference opcodes. -/
def decodeTableWord (nbits w : Nat) : Option Instr :=
  match decode Opc.reference (tableBytes nbits w) with
  | .ok i _ => some i
  | .fail _ _ => none

end Sys2Proof
end

