-- ==== Sys2Proof/Machine/Flags.lean ====
section
/-! DEFINITION. There are no status flags, condition codes or predicates (spec 10_state R31), so no flag is computed
anywhere. This file holds the two computations other machines keep flags for: the sum, whose carry is lost, and the
comparison, whose result is used at once and not stored (42_arithmetic R130 to R132). -/

namespace Sys2Proof.Machine

/-- `a +16 b` = (a + b) mod 65536; the carry out of bit 15 is lost, nothing is raised (R9, R130, R131). -/
def sum16 (a b : Word) : Word := BitVec.ofNat 16 ((a.toNat + b.toNat) % 65536)

/-- `a -16 b` = (a - b + 65536) mod 65536 (R9, R131). -/
def diff16 (a b : Word) : Word := BitVec.ofNat 16 ((65536 + a.toNat - b.toNat) % 65536)

/-- The one comparison: do two 16-bit values differ in any bit (R132)? -/
def differs (a b : Word) : Bool := a.toNat != b.toNat

end Sys2Proof.Machine
end

