-- ==== Sys2Proof/Machine/Memory.lean ====
section
/-! DEFINITION. Addressable Memory as plain data (spec 10_state R35, 20_memory R50): a list of (address, byte) pairs in
one canonical form, addresses strictly rising and no byte 0x00 listed. An unlisted address reads 0x00, the loader's zero
fill (10_state R34, 70_reset_and_hazards R204; log 5). The bounds check against N is in Ops.lean. -/

namespace Sys2Proof.Machine

abbrev Memory := List Host.Cell

/-- What an address that nothing lists reads as (R34, R204; log 5). -/
def unlistedByte : Byte := 0

/-- `M[a]` (R10). -/
def Memory.read : Memory → Nat → Byte
  | [], _ => unlistedByte
  | (x, v) :: m, a => if x = a then v else Memory.read m a

/-- The memory without an entry for `a`. -/
def Memory.erase (m : Memory) (a : Nat) : Memory := m.filter fun c => c.1 != a

/-- The memory with an entry for `a` put before the first entry of a higher address. -/
def Memory.insert : Memory → Nat → Byte → Memory
  | [], a, b => [(a, b)]
  | (x, v) :: m, a, b => if x < a then (x, v) :: Memory.insert m a b else (a, b) :: (x, v) :: m

/-- `M[a] <- b`: no other byte changes (20_memory R56). Writing what an unlisted address reads as removes the entry. -/
def Memory.write (m : Memory) (a : Nat) (b : Byte) : Memory :=
  if b = unlistedByte then Memory.erase m a else Memory.insert (Memory.erase m a) a b

/-- The bytes of `bs` written from address `a` upward. -/
def Memory.load (m : Memory) (a : Nat) : List Byte → Memory
  | [] => m
  | b :: bs => Memory.load (Memory.write m a b) (a + 1) bs

/-- The canonical form: addresses strictly rising, nothing listed that reads as an unlisted address does. -/
abbrev Memory.wf (m : Memory) : Prop :=
  m.Pairwise (fun c d => c.1 < d.1) ∧ ∀ c ∈ m, c.2 ≠ unlistedByte

/-- Only addresses below `n` are listed. -/
abbrev Memory.below (m : Memory) (n : Nat) : Prop := ∀ c ∈ m, c.1 < n

end Sys2Proof.Machine
end

