-- ==== Sys2Proof/Machine/Registers.lean ====
section
/-! DEFINITION. The register file (spec 10_state R20 to R23, R34): twelve 16-bit registers, each held as one value
(R21), none hardwired, none read-only, no aliases (R22). -/

namespace Sys2Proof.Machine

structure RegFile where
  ip : Word
  acc : Word
  r1 : Word
  r2 : Word
  r3 : Word
  r4 : Word
  r5 : Word
  r6 : Word
  r7 : Word
  r8 : Word
  sp : Word
  fp : Word
  deriving DecidableEq, Repr

/-- `x[r]` (R10, R22). -/
def RegFile.get (f : RegFile) : Reg → Word
  | .ip => f.ip
  | .acc => f.acc
  | .r1 => f.r1
  | .r2 => f.r2
  | .r3 => f.r3
  | .r4 => f.r4
  | .r5 => f.r5
  | .r6 => f.r6
  | .r7 => f.r7
  | .r8 => f.r8
  | .sp => f.sp
  | .fp => f.fp

/-- `x[r] <- v` (R10, R22, R23). -/
def RegFile.set (f : RegFile) (r : Reg) (v : Word) : RegFile :=
  match r with
  | .ip => { f with ip := v }
  | .acc => { f with acc := v }
  | .r1 => { f with r1 := v }
  | .r2 => { f with r2 := v }
  | .r3 => { f with r3 := v }
  | .r4 => { f with r4 := v }
  | .r5 => { f with r5 := v }
  | .r6 => { f with r6 := v }
  | .r7 => { f with r7 := v }
  | .r8 => { f with r8 := v }
  | .sp => { f with sp := v }
  | .fp => { f with fp := v }

/-- The registers after reset in a memory of `n` bytes: `sp` = `fp` = n - 2, every other register 0 (R20, R34). -/
def RegFile.reset (n : Nat) : RegFile where
  ip := 0
  acc := 0
  r1 := 0
  r2 := 0
  r3 := 0
  r4 := 0
  r5 := 0
  r6 := 0
  r7 := 0
  r8 := 0
  sp := BitVec.ofNat 16 (n - 2)
  fp := BitVec.ofNat 16 (n - 2)

end Sys2Proof.Machine
end

