-- ==== Sys2Proof/Machine/State.lean ====
section
/-! DEFINITION. The state of the machine (spec 10_state), the errors, and the reasons a step can stop. -/

namespace Sys2Proof.Machine

/-- RUN (10_state R29, R32). A step is one transition, so no step leaves `executing` behind. -/
inductive RunState where
  | idle | executing | faulted
  deriving DecidableEq, Repr

/-- The errors a step can raise (60_exceptions R170, R171, R173). Raising one is a NEXT state (`State.raise`). -/
inductive StepError where
  /-- A memory access with address + width > N; the address is the unbounded integer that was checked (R171). -/
  | outOfBounds (addr width : Nat)
  /-- The fetched opcode byte has no entry in the instruction table (R173). -/
  | invalidOpcode (opcode : Byte) (addr : Word)
  deriving DecidableEq, Repr

/-- What the spec gives the machine, and the parameters of its step. -/
structure State where
  /-- The parameters N, OPC and fault codes (00_scope R6, R8); no step writes them (log 1). -/
  cfg : Config
  /-- The twelve registers (10_state R20). -/
  regs : RegFile
  /-- SFS, the hidden stack-frame-size counter (R27). -/
  sfs : Word
  /-- RUN (R29). -/
  run : RunState
  /-- FAULT_CODE (R30, R32); 0 is none. -/
  faultCode : BitVec 2
  /-- FAULT_INFO.addr (R32): 0..65537. -/
  faultAddr : BitVec 17
  /-- FAULT_INFO.width (R32): meaningful for OutOfBounds only. -/
  faultWidth : BitVec 2
  /-- FAULT_INFO.opcode (R32): meaningful for InvalidOpcode only. -/
  faultOpcode : Byte
  /-- Addressable Memory (R35). -/
  mem : Memory
  /-- The MODEL'S OWN: how many free values have been drawn (log 4). -/
  freeDraws : Nat
  deriving DecidableEq, Repr

/-- Reasons a step stops with a fault: NONE. Each error a step can raise leaves a state the spec gives whole
(60_exceptions R176), so it is a next state (`State.raise`), and a step request in Faulted changes nothing (10_state
R29). Nobody raises a fault; there is nothing safe or unsafe to say of one (log 7). -/
inductive Fault where
  deriving DecidableEq, Repr

/-- Reasons the model gives no transition. -/
inductive Refusal where
  /-- An instruction of the table that has no meaning yet; raised by `exec` alone, of no instruction today. Safe. -/
  | notModelled (mnemonic : String)
  /-- A step request while RUN = Executing, which the host is "assumed never" to make (70_reset_and_hazards R215);
  raised by `step`; no step leaves RUN = Executing. Safe. -/
  | stepDuringStep
  /-- "a core is not built for any other N" (70_reset_and_hazards R201), nor for a non-injective OPC (30_encoding R88) or
  clashing fault codes (00_scope R6); raised by `prepare`, and so by `launch`. Safe. -/
  | badConfig
  /-- "The image must fit: len <= N" (70_reset_and_hazards R204); raised by `prepare`, and so by `launch`. Safe. -/
  | imageTooLong
  deriving DecidableEq, Repr

/-- The core state after reset (10_state R34, 70_reset_and_hazards R200) with parameters `c`, beside a memory `m`, which
reset neither reads nor writes (D17). FAULT_INFO is unspecified while FAULT_CODE = 0: DESIGN CHOICE 0 (log 3). -/
def State.resetWith (c : Config) (m : Memory) : State where
  cfg := c
  regs := RegFile.reset c.size
  sfs := 0
  run := .idle
  faultCode := 0
  faultAddr := 0
  faultWidth := 0
  faultOpcode := 0
  mem := m
  freeDraws := 0

/-- The machine right after reset: the reference parameters, memory with nothing listed (every byte 0x00; log 5). -/
def State.reset : State := State.resetWith Config.reference []

end Sys2Proof.Machine
end

