-- ==== Sys2Proof/Machine/Ops.lean ====
section
/-! DEFINITION. The named operations over registers and memory: register access, the four bounds-checked memory
primitives (spec 20_memory R53 to R57), the stack primitives (40_cycle_and_primitives R106 to R108), a failed step
(60_exceptions R176) and the only way out of it, reset (70_reset_and_hazards R200). -/

namespace Sys2Proof.Machine

/-! ### Registers and single fields -/

/-- `x[r]` (10_state R22). -/
def State.getReg (s : State) (r : Reg) : Word := s.regs.get r

/-- `x[r] <- v` (10_state R22, R23). -/
def State.setReg (s : State) (r : Reg) (v : Word) : State := { s with regs := s.regs.set r v }

/-- `SFS <- v` (10_state R27). -/
def State.setSfs (s : State) (v : Word) : State := { s with sfs := v }

/-- `RUN <- r` (10_state R29). -/
def State.setRun (s : State) (r : RunState) : State := { s with run := r }

/-- Memory replaced. -/
def State.setMem (s : State) (m : Memory) : State := { s with mem := m }

/-! ### The memory primitives: bounds-checked, big-endian, no alignment (20_memory R52 to R58) -/

/-- `MemRead(a, 1)` (R54). -/
def State.memRead8 (s : State) (a : Nat) : Except StepError Byte :=
  if a + 1 ≤ s.cfg.size then .ok (s.mem.read a) else .error (.outOfBounds a 1)

/-- `MemRead(a, 2)` (R55): the byte at `a` is the high byte. -/
def State.memRead16 (s : State) (a : Nat) : Except StepError Word :=
  if a + 2 ≤ s.cfg.size then .ok (Word.ofBytes (s.mem.read a) (s.mem.read (a + 1))) else .error (.outOfBounds a 2)

/-- `MemWrite(a, 1, v)` (R56): used by the loader alone. -/
def State.memWrite8 (s : State) (a : Nat) (b : Byte) : Except StepError State :=
  if a + 1 ≤ s.cfg.size then .ok (s.setMem (s.mem.write a b)) else .error (.outOfBounds a 1)

/-- `MemWrite(a, 2, v)` (R57): both bytes or neither. -/
def State.memWrite16 (s : State) (a : Nat) (v : Word) : Except StepError State :=
  if a + 2 ≤ s.cfg.size then .ok (s.setMem ((s.mem.write a (Word.hi v)).write (a + 1) (Word.lo v)))
  else .error (.outOfBounds a 2)

/-! ### The failed step, and reset -/

/-- What a failed step leaves (60_exceptions R176): RUN = Faulted and the fault latch set as R170, R171 and R173 say;
memory, SFS and every register as they are here (`ip` as the completed fetches left it). The FAULT_INFO field that does
not belong to the error is unspecified (10_state R32): a free value (log 4). -/
def State.raise (s : State) (e : StepError) : State :=
  match e with
  | .outOfBounds a w =>
    { s with
      run := .faulted
      faultCode := s.cfg.codes.outOfBounds
      faultAddr := BitVec.ofNat 17 a
      faultWidth := BitVec.ofNat 2 w
      faultOpcode := Config.freeFaultOpcode s.freeDraws
      freeDraws := s.freeDraws + 1 }
  | .invalidOpcode b p =>
    { s with
      run := .faulted
      faultCode := s.cfg.codes.invalidOpcode
      faultAddr := BitVec.ofNat 17 p.toNat
      faultWidth := Config.freeFaultWidth s.freeDraws
      faultOpcode := b
      freeDraws := s.freeDraws + 1 }

/-- The effect phase is all-or-nothing (40 R110): its result whole, or the failed step from the state before it. -/
def State.commit (s : State) (r : Except StepError State) : Host.Outcome State Fault Refusal :=
  match r with
  | .ok t => .next t
  | .error e => .next (s.raise e)

/-- Reset, the only way out of Faulted (70 R200, 60 R178): the core state to its reset values, memory and the parameters
as they are (D17). There is no return from an error (60 R178). -/
def State.resetCore (s : State) : State :=
  { State.resetWith s.cfg s.mem with freeDraws := s.freeDraws }

/-! ### The stack primitives -/

/-- `Push(v)` (R106): the word goes to the address `sp` held before the decrement. -/
def State.push (s : State) (v : Word) : Except StepError State :=
  match s.memWrite16 (s.getReg .sp).toNat v with
  | .ok t => .ok ((t.setReg .sp (diff16 (s.getReg .sp) 2)).setSfs (sum16 s.sfs 2))
  | .error e => .error e

/-- `Pop()` (R107): the address `sp + 2` is checked as an unbounded integer before `sp` is written. -/
def State.pop (s : State) : Except StepError (Word × State) :=
  let a := (s.getReg .sp).toNat + 2
  match s.memRead16 a with
  | .ok v => .ok (v, (s.setReg .sp (BitVec.ofNat 16 a)).setSfs (diff16 s.sfs 2))
  | .error e => .error e

/-- `Push` of each word in turn, stopping at the first that fails. -/
def State.pushAll (s : State) : List Word → Except StepError State
  | [] => .ok s
  | v :: vs =>
    match s.push v with
    | .ok t => t.pushAll vs
    | .error e => .error e

/-- The nine words a call frame begins with: `r1`..`r8`, then `ip` (R108). -/
def State.frameWords (s : State) : List Word :=
  [s.getReg .r1, s.getReg .r2, s.getReg .r3, s.getReg .r4, s.getReg .r5, s.getReg .r6, s.getReg .r7, s.getReg .r8,
    s.getReg .ip]

/-- `PushState()` (R108, D7): the last word is `SFS +16 2` with SFS as the nine earlier pushes left it; then
`fp := sp` and `SFS := 0`. -/
def State.pushState (s : State) : Except StepError State :=
  match s.pushAll s.frameWords with
  | .error e => .error e
  | .ok t =>
    match t.push (sum16 t.sfs 2) with
    | .error e => .error e
    | .ok u => .ok ((u.setReg .fp (u.getReg .sp)).setSfs 0)

end Sys2Proof.Machine
end

