-- ==== Sys2Proof/Machine/Operands.lean ====
section
/-! DEFINITION. The operand forms and how an instruction is fetched: the fetch primitives over `ip` (spec
40_cycle_and_primitives R102 to R104), the decoder of Decode.lean reading memory with them (R87, R101), and the one
addressing mode (41_data_transfer R124). Fetching changes only `ip`, so its source is a value of `ip`. -/

namespace Sys2Proof.Machine

/-- `Fetch8()` (R102): `ip` advances by 1 modulo 65536 (10_state R25), and not at all if the read fails. -/
def State.fetch8 (s : State) (ip : Word) : Fetched StepError Word Byte :=
  match s.memRead8 ip.toNat with
  | .ok b => .ok b (sum16 ip 1)
  | .error e => .fail e ip

/-- `Fetch16()` (R103): one word access; `ip` advances by 2, and not at all if the read fails. -/
def State.fetch16 (s : State) (ip : Word) : Fetched StepError Word Word :=
  match s.memRead16 ip.toNat with
  | .ok w => .ok w (sum16 ip 2)
  | .error e => .fail e ip

/-- The opcode and the operands of the instruction at `ip` (R100, R101), and the post-fetch value of `ip`. -/
def State.fetchInstr (s : State) : Fetched StepError Word Instr :=
  decodeFrom s.fetch8 s.fetch16 .invalidOpcode s.cfg.opc (s.getReg .ip)

/-- The effective address of an address operand: the operand itself, a byte address (R124). -/
def effectiveAddress (a : Word) : Nat := a.toNat

end Sys2Proof.Machine
end

