-- ==== Sys2Proof/Machine/Cycle.lean ====
section
/-! DEFINITION. The fetch-decode-execute cycle around the handlers (spec 40_cycle_and_primitives R100), and the placing
of a program's bytes. Step.lean calls them. -/

namespace Sys2Proof.Machine

/-- RUN <- Executing, `ip` as the completed fetches left it (R100, R101). -/
def State.enterStep (s : State) (ip : Word) : State := (s.setRun .executing).setReg .ip ip

/-- RUN <- Idle, unless the handler raised an error (R100, 10_state R29). -/
def State.leaveStep (s : State) : State := if s.run = .executing then s.setRun .idle else s

/-- What follows the handler in a step (R100). -/
def finishStep (o : Host.Outcome State Fault Refusal) : Host.Outcome State Fault Refusal :=
  match o with
  | .next t => .next t.leaveStep
  | .fault r => .fault r
  | .refused r => .refused r

/-- One step request (R100), `handler` being the dispatch table: in Faulted nothing changes (10_state R29); in Idle one
instruction is fetched and runs to completion, or the step fails (60_exceptions R176). A request during a step is
"assumed never" (70_reset_and_hazards R215): refused (log 8). -/
def State.cycle (handler : Instr → State → Host.Outcome State Fault Refusal) (s : State) :
    Host.Outcome State Fault Refusal :=
  match s.run with
  | .faulted => .next s
  | .executing => .refused .stepDuringStep
  | .idle =>
    match s.fetchInstr with
    | .fail e ip => .next ((s.enterStep ip).raise e)
    | .ok i ip => finishStep (handler i (s.enterStep ip))

/-- Bytes stored from address `p` upward, the addresses modulo 65536 (30_encoding R80); a byte whose address does not
exist is left out. -/
def State.placeBytes (s : State) (p : Word) : List Byte → State
  | [] => s
  | b :: bs =>
    (if p.toNat < s.cfg.size then s.setMem (s.mem.write p.toNat b) else s).placeBytes (sum16 p 1) bs

/-- The instruction whose bits are `w`, numbered as the opcode table numbers them, placed where the next step fetches;
RUN = Idle, or the step would fetch nothing (log 6, log 9). -/
def State.placeTableWord (s : State) (nbits w : Nat) : State :=
  (s.placeBytes (s.getReg .ip) (tableBytes nbits w)).setRun .idle

end Sys2Proof.Machine
end

