-- ==== Sys2Proof/Machine/Arith.lean ====
section
/-! DEFINITION. The arithmetic instruction (spec 42_arithmetic). -/

namespace Sys2Proof.Machine

/-- ADD_REG_REG (R130): `x[acc] <- x[a] +16 x[b]`; both addends are read before `acc` is written. -/
def execAddRegReg (a b : Reg) (s : State) : Host.Outcome State Fault Refusal :=
  .next (s.setReg .acc (sum16 (s.getReg a) (s.getReg b)))

end Sys2Proof.Machine
end

