-- ==== Sys2Proof/Machine/Branch.lean ====
section
/-! DEFINITION. The conditional branch (spec 43_branch). -/

namespace Sys2Proof.Machine

/-- JMP_NOT_EQ (R140): if the literal differs from `acc` then `ip <- target`, unchecked; else `ip` stays. -/
def execJmpNotEq (lit target : Word) (s : State) : Host.Outcome State Fault Refusal :=
  .next (if differs lit (s.getReg .acc) then s.setReg .ip target else s)

end Sys2Proof.Machine
end

