-- ==== Sys2Proof/Machine/Call.lean ====
section
/-! DEFINITION. The call (spec 45_call). There is no return instruction (R163). -/

namespace Sys2Proof.Machine

/-- CAL_LIT (R160): `PushState(); ip <- target`, the target unchecked. -/
def execCalLit (target : Word) (s : State) : Host.Outcome State Fault Refusal :=
  s.commit (s.pushState.map fun t => t.setReg .ip target)

end Sys2Proof.Machine
end

