-- ==== Sys2Proof/Machine/Move.lean ====
section
/-! DEFINITION. The data transfer instructions (spec 41_data_transfer). In every meaning `s` is the state after the
decode phase: `ip` holds the post-fetch value (40_cycle_and_primitives R101). -/

namespace Sys2Proof.Machine

/-- MOV_LIT_REG (R120): `x[d] <- lit`. -/
def execMovLitReg (lit : Word) (d : Reg) (s : State) : Host.Outcome State Fault Refusal :=
  .next (s.setReg d lit)

/-- MOV_REG_REG (R121): `x[d] <- x[src]`. -/
def execMovRegReg (src d : Reg) (s : State) : Host.Outcome State Fault Refusal :=
  .next (s.setReg d (s.getReg src))

/-- MOV_REG_MEM (R122): `MemWrite(a, 2, x[src])`. -/
def execMovRegMem (src : Reg) (a : Word) (s : State) : Host.Outcome State Fault Refusal :=
  s.commit (s.memWrite16 (effectiveAddress a) (s.getReg src))

/-- MOV_MEM_REG (R123): `x[d] <- MemRead(a, 2)`. -/
def execMovMemReg (a : Word) (d : Reg) (s : State) : Host.Outcome State Fault Refusal :=
  s.commit ((s.memRead16 (effectiveAddress a)).map fun v => s.setReg d v)

end Sys2Proof.Machine
end

