-- ==== Sys2Proof/Machine/Stack.lean ====
section
/-! DEFINITION. The stack instructions (spec 44_stack). -/

namespace Sys2Proof.Machine

/-- PSH_LIT (R150): `Push(lit)`. -/
def execPshLit (lit : Word) (s : State) : Host.Outcome State Fault Refusal :=
  s.commit (s.push lit)

/-- PSH_REG (R151): `Push(x[src])`. -/
def execPshReg (src : Reg) (s : State) : Host.Outcome State Fault Refusal :=
  s.commit (s.push (s.getReg src))

/-- POP (R152): `v <- Pop(); x[d] <- v`, the register write after the update of `sp`. -/
def execPop (d : Reg) (s : State) : Host.Outcome State Fault Refusal :=
  s.commit (s.pop.map fun p => p.2.setReg d p.1)

end Sys2Proof.Machine
end

