-- ==== Sys2Proof/Machine/Dispatch.lean ====
section
/-! DEFINITION. The dispatch table (spec 40_cycle_and_primitives R105): one arm per instruction. -/

namespace Sys2Proof.Machine

def exec (i : Instr) (s : State) : Host.Outcome State Fault Refusal :=
  match i with
  | .movLitReg lit d => Sys2Proof.Machine.execMovLitReg lit d s
  | .movRegReg src d => Sys2Proof.Machine.execMovRegReg src d s
  | .movRegMem src a => Sys2Proof.Machine.execMovRegMem src a s
  | .movMemReg a d => Sys2Proof.Machine.execMovMemReg a d s
  | .addRegReg a b => Sys2Proof.Machine.execAddRegReg a b s
  | .jmpNotEq lit target => Sys2Proof.Machine.execJmpNotEq lit target s
  | .pshLit lit => Sys2Proof.Machine.execPshLit lit s
  | .pshReg src => Sys2Proof.Machine.execPshReg src s
  | .pop d => Sys2Proof.Machine.execPop d s
  | .calLit target => Sys2Proof.Machine.execCalLit target s

end Sys2Proof.Machine
end

