-- ==== Sys2Proof/Machine/Step.lean ====
section
/-! DEFINITION. One step: a step request of the host (spec 40_cycle_and_primitives R100). -/

namespace Sys2Proof.Machine

/-- One step request (R100; the work is `State.cycle`). -/
def step (s : State) : Host.Outcome State Fault Refusal := s.cycle exec

/-- `s` with the instruction of the table word stored where `step` fetches next (log 9). -/
def State.withFetchWord (s : State) (nbits w : Nat) : State := s.placeTableWord nbits w

end Sys2Proof.Machine
end

