-- ==== Sys2Proof/WellFormed.lean ====
section
/-! DEFINITION. What the spec admits. An instruction has no ill-formed operand: every 16-bit value is a legal literal or
address and every register operand names a register (30_encoding R90), so the types of Syntax.lean are the whole check
and `Instr.wf` holds of every instruction. The checks that can fail are those on the parameters (00_scope R6, 30_encoding
R88) and on a program image (70_reset_and_hazards R204). -/

namespace Sys2Proof

/-- Every instruction is well formed: "Inside a legal instruction no operand value is illegal or reserved" (R90). -/
def Instr.wf : Instr → Bool
  | .movLitReg _ _ => true
  | .movRegReg _ _ => true
  | .movRegMem _ _ => true
  | .movMemReg _ _ => true
  | .addRegReg _ _ => true
  | .jmpNotEq _ _ => true
  | .pshLit _ => true
  | .pshReg _ => true
  | .pop _ => true
  | .calLit _ => true

/-- `OPC` is injective: opcode values are unique (R88). -/
abbrev Opc.Injective (opc : Opc) : Prop := (Op.all.map opc.byte).Nodup

/-- Three different non-zero values (R6). -/
abbrev FaultCodes.Distinct (c : FaultCodes) : Prop := [0, c.outOfBounds, c.unknownRegister, c.invalidOpcode].Nodup

/-- The parameters the spec admits: 2 <= N <= 65536 (R201, D3), `OPC` injective (R88), fault codes different and
non-zero (R6). -/
abbrev Config.wf (c : Config) : Prop :=
  2 ≤ c.size ∧ c.size ≤ 65536 ∧ c.opc.Injective ∧ c.codes.Distinct

/-- The program image fits in memory: len <= N (R204). -/
abbrev Config.fits (c : Config) (image : List Byte) : Prop := image.length ≤ c.size

end Sys2Proof
end

