-- ==== Sys2Proof/Machine/HostPort.lean ====
section
/-! DEFINITION. What the host may do (spec 70_reset_and_hazards R214, R215; 60_exceptions R186 to R188): set up a run
before the first step (`launch`), reset the core (`State.resetCore`, Ops.lean), request steps (`step`, `runFor`) and
inspect, read-only. No move here writes memory or a register after the first step: `set` acts on a `Setup`, which is no
state of the machine (log 10). -/

namespace Sys2Proof.Machine

/-- What the host's requests can report. -/
inductive HostError where
  /-- A memory window reaching past N (R187); not latched. -/
  | outOfBounds
  /-- A register requested by a name outside the fixed set (R172, R188); not latched. -/
  | unknownRegister
  /-- DESIGN CHOICE (log 12): the answer to an inspection request made while RUN = Executing, which the spec leaves open:
  R186, R188 and R215 give the surface only when RUN is not Executing. The model's own, none of R170's three errors. -/
  | coreExecuting
  deriving DecidableEq, Repr

/-- The register a 4-bit name of the host's port stands for; 12..15 are none (R188). -/
def portRegister (i : BitVec 4) : Option Reg := Reg.all[i.toNat]?

/-! ### Inspection, read-only -/

/-- The answer of a read-only request: available whenever RUN is not Executing (R186, R188, R215). What is answered while
RUN = Executing the spec leaves open: DESIGN CHOICE `coreExecuting`, for every inspection alike (log 12). -/
def State.inspect {α : Type} (s : State) (answer : Except HostError α) : Except HostError α :=
  if s.run = .executing then .error .coreExecuting else answer

/-- `get` on the host's register port (R188). -/
def State.portGet (s : State) (i : BitVec 4) : Except HostError Word :=
  s.inspect (match portRegister i with
    | some r => .ok (s.getReg r)
    | none => .error .unknownRegister)

/-- `dumpRegisters()` (R186): the twelve registers in declaration order. -/
def State.dumpRegisters (s : State) : Except HostError (List (Reg × Word)) :=
  s.inspect (.ok (Reg.all.map fun r => (r, s.getReg r)))

/-- `dumpMemoryWindow(address, length = 8)` (R187). -/
def State.dumpMemoryWindow (s : State) (a : Nat) (length : Nat := 8) : Except HostError (List Byte) :=
  s.inspect (if a + length ≤ s.cfg.size then .ok ((List.range length).map fun k => s.mem.read (a + k))
    else .error .outOfBounds)

/-- The fault latch as the host reads it (R214; 10_state R30, R32): code, address, width, opcode. While the code is 0,
or for a field that is not the error's, what is read is unspecified (U14). -/
def State.faultLatch (s : State) : Except HostError (BitVec 2 × BitVec 17 × BitVec 2 × Byte) :=
  s.inspect (.ok (s.faultCode, s.faultAddr, s.faultWidth, s.faultOpcode))

/-- RUN as the host reads it (10_state R32; R214, R215). -/
def State.runState (s : State) : Except HostError RunState := s.inspect (.ok s.run)

/-! ### Setting up a run, before the first step -/

/-- A core that is being set up: its parameters, its program image and the registers its first step will find. The host's
`set` acts on this alone, so no state of a run can be `set` (R188, R215, D14). -/
structure Setup where
  cfg : Config
  image : List Byte
  regs : RegFile
  deriving DecidableEq, Repr

/-- A core just launched, and what was reported to each `set` in turn: nothing, or the error. -/
structure Launched where
  core : State
  reports : List (Option HostError)
  deriving DecidableEq, Repr

/-- A core is built for parameters the spec admits (R201) and an image that fits (R204), its registers reset (R200). -/
def prepare (c : Config) (image : List Byte) : Host.Outcome Setup Fault Refusal :=
  if c.wf then
    if c.fits image then .next { cfg := c, image := image, regs := RegFile.reset c.size }
    else .refused .imageTooLong
  else .refused .badConfig

/-- `set` on the host's register port, a move before the first step only (R188, D14). -/
def Setup.portSet (u : Setup) (i : BitVec 4) (v : Word) : Except HostError Setup :=
  match portRegister i with
  | some r => .ok { u with regs := u.regs.set r v }
  | none => .error .unknownRegister

/-- Register sets in turn; one that fails is reported and changes nothing (R188). -/
def Setup.portSets (u : Setup) : List (BitVec 4 × Word) → Setup × List (Option HostError)
  | [] => (u, [])
  | p :: ps =>
    match u.portSet p.1 p.2 with
    | .ok w => ((w.portSets ps).1, none :: (w.portSets ps).2)
    | .error e => ((u.portSets ps).1, some e :: (u.portSets ps).2)

/-- The launch state (R204, R206, R216): the core as reset leaves it but for the registers the host set, memory the image
from address 0 and 0x00 elsewhere. -/
def Setup.start (u : Setup) : State :=
  { State.resetWith u.cfg (Memory.load [] 0 u.image) with regs := u.regs }

/-- Build a core, set registers of it, if any, and hand it over before its first step, with the reports. -/
def launch (c : Config) (image : List Byte) (sets : List (BitVec 4 × Word)) : Host.Outcome Launched Fault Refusal :=
  match prepare c image with
  | .next u => .next { core := (u.portSets sets).1.start, reports := (u.portSets sets).2 }
  | .fault r => .fault r
  | .refused r => .refused r

/-! ### Runs -/

/-- `k` successive step requests, whatever they leave (70_reset_and_hazards R215: the host may go on requesting in
Faulted). -/
def stepFor : Nat → State → Host.Outcome State Fault Refusal
  | 0, s => .next s
  | k + 1, s =>
    match step s with
    | .next t => stepFor k t
    | .fault r => .fault r
    | .refused r => .refused r

/-- A run (R213): `k` successive step requests, ending at the first step that leaves RUN = Faulted. -/
def runFor : Nat → State → Host.Outcome State Fault Refusal
  | 0, s => .next s
  | k + 1, s =>
    match step s with
    | .next t => if t.run = .faulted then .next t else runFor k t
    | .fault r => .fault r
    | .refused r => .refused r

end Sys2Proof.Machine
end

