-- ==== Sys2Proof/Safety.lean ====
section
/-! DEFINITION. The terms statements are written in: what a failed step leaves, what an instruction keeps, the
invariant of the machine, what a step accesses and an instruction's whole effect, and what a run that has not gone
wrong is. Each is said with reads of single fields, not with the operations the machine uses. -/

namespace Sys2Proof.Machine

/-! ### A failed step (spec 60_exceptions R170 to R176) -/

/-- The fault latch records this error (R170, R171, R173). The FAULT_INFO field that does not belong to the error is left
open. -/
def State.Latched (t : State) : StepError → Prop
  | .outOfBounds a w => t.faultCode = t.cfg.codes.outOfBounds ∧ t.faultAddr.toNat = a ∧ t.faultWidth.toNat = w
  | .invalidOpcode b p =>
    t.faultCode = t.cfg.codes.invalidOpcode ∧ t.faultOpcode = b ∧ t.faultAddr.toNat = p.toNat

/-- `t` is what a failed step from `s` leaves (R176): `ip` at `ipLeft`, every other register, SFS, memory and the
parameters as in `s`, RUN = Faulted, the error latched (the spec's decisions D10, D11). That it is a state at all, and no
stop of the model, is log 7. -/
def FailedFrom (s t : State) (ipLeft : Word) (e : StepError) : Prop :=
  t.run = .faulted ∧ t.getReg .ip = ipLeft ∧ (∀ r, r ≠ Reg.ip → t.getReg r = s.getReg r) ∧
    t.sfs = s.sfs ∧ t.mem = s.mem ∧ t.cfg = s.cfg ∧ t.Latched e

/-! ### Frames -/

/-- The fault latch reads as it did: FAULT_CODE, and of FAULT_INFO what has a meaning. While FAULT_CODE = 0, and in a
field that is not the latched error's, FAULT_INFO may hold any value and nothing is said of it (10_state R32;
93_implementation_defined U14). -/
def LatchKept (s t : State) : Prop :=
  t.faultCode = s.faultCode ∧ (s.faultCode ≠ 0 → t.faultAddr = s.faultAddr ∧
    (s.faultCode = s.cfg.codes.outOfBounds → t.faultWidth = s.faultWidth) ∧
    (s.faultCode = s.cfg.codes.invalidOpcode → t.faultOpcode = s.faultOpcode))

/-- Every register outside `rs` is as it was, and so are the parameters, RUN and the fault latch. -/
def KeepsBut (rs : List Reg) (s t : State) : Prop :=
  (∀ r, r ∉ rs → t.getReg r = s.getReg r) ∧ t.cfg = s.cfg ∧ t.run = s.run ∧ LatchKept s t

/-- Every byte of memory reads as it did. -/
def MemKept (s t : State) : Prop := ∀ x, t.mem.read x = s.mem.read x

/-- Every byte of memory but the word at `a` reads as it did. -/
def MemKeptButWord (a : Nat) (s t : State) : Prop := ∀ x, x ≠ a → x ≠ a + 1 → t.mem.read x = s.mem.read x

/-- The word `v` lies at `a`, high byte first (20_memory R52). -/
def WordAt (t : State) (a : Nat) (v : Word) : Prop :=
  (t.mem.read a).toNat = v.toNat / 256 ∧ (t.mem.read (a + 1)).toNat = v.toNat % 256

/-! ### Where an instruction stands -/

/-- RUN = Idle and the byte at `ip` exists and is the opcode of `op`. -/
abbrev State.AtOpcode (s : State) (op : Op) : Prop :=
  s.run = .idle ∧ (s.getReg .ip).toNat + 1 ≤ s.cfg.size ∧ s.mem.read (s.getReg .ip).toNat = s.cfg.opc.byte op

/-- `p_k` = `ip +16 k`, the address of byte `k` of the instruction at `ip` (41_data_transfer, notation). -/
def State.byteAddr (s : State) (k : Nat) : Word := BitVec.ofNat 16 ((s.getReg .ip).toNat + k)

/-- An access of width `w` at `a` stays inside memory (20_memory R53). -/
abbrev State.Fits (s : State) (a w : Nat) : Prop := a + w ≤ s.cfg.size

/-- The word at `a`: `M[a] * 256 + M[a+1]` (20_memory R55). -/
def State.wordValue (s : State) (a : Nat) : Word :=
  BitVec.ofNat 16 ((s.mem.read a).toNat * 256 + (s.mem.read (a + 1)).toNat)

/-- The literal or address operand whose high byte is at `p_k` (30_encoding R82). -/
def State.operandWord (s : State) (k : Nat) : Word := s.wordValue (s.byteAddr k).toNat

/-- The register the byte at `p_k` names (30_encoding R83). -/
def State.operandReg (s : State) (k : Nat) : Reg := Reg.ofByte (s.mem.read (s.byteAddr k).toNat)

/-- What source register `r` reads as in an instruction of `n` bytes at `ip`: `ip` itself reads as its post-fetch value
(40_cycle_and_primitives R101). -/
def State.sourceValue (s : State) (n : Nat) (r : Reg) : Word := if r = .ip then s.byteAddr n else s.getReg r

/-- The bytes at `p_0`, .., `p_(n-1)`. -/
def State.bytesAtIp (s : State) (n : Nat) : List Byte :=
  (List.range n).map fun k => s.mem.read (s.byteAddr k).toNat

/-- The address of the k-th push of a call from `s`: `sp -16 2k` (40_cycle_and_primitives R108). -/
def State.frameAddr (s : State) (k : Nat) : Nat := (65536 + (s.getReg .sp).toNat - 2 * k) % 65536

/-- `k` pops in a row: the words in the order they come, and the state after them. -/
def State.popAll (s : State) : Nat → Except StepError (List Word × State)
  | 0 => .ok ([], s)
  | k + 1 =>
    match s.pop with
    | .error e => .error e
    | .ok (v, t) =>
      match t.popAll k with
      | .error e => .error e
      | .ok (vs, u) => .ok (v :: vs, u)

/-! ### What an instruction may write (spec 10_state R36) -/

end Sys2Proof.Machine

namespace Sys2Proof

/-- The registers an instruction writes in its effect phase: its destination operand, and those R36 says it writes
implicitly. -/
def Instr.writes : Instr → List Reg
  | .movLitReg _ d => [d]
  | .movRegReg _ d => [d]
  | .movRegMem _ _ => []
  | .movMemReg _ d => [d]
  | .addRegReg _ _ => [.acc]
  | .jmpNotEq _ _ => [.ip]
  | .pshLit _ => [.sp]
  | .pshReg _ => [.sp]
  | .pop d => [.sp, d]
  | .calLit _ => [.sp, .fp, .ip]

/-- The instructions that write SFS: those that push or pop (10_state R27, R36). -/
def Op.writesSfs : Op → Bool
  | .pshLit | .pshReg | .pop | .calLit => true
  | .movLitReg | .movRegReg | .movRegMem | .movMemReg | .addRegReg | .jmpNotEq => false

/-- The instructions that write memory (20_memory R59). -/
def Op.writesMemory : Op → Bool
  | .movRegMem | .pshLit | .pshReg | .calLit => true
  | .movLitReg | .movRegReg | .movMemReg | .addRegReg | .jmpNotEq | .pop => false

end Sys2Proof

namespace Sys2Proof.Machine

/-! ### The accesses of a step, and an instruction's whole effect (spec 41 to 45; 60_exceptions R175) -/

/-- The instruction of operation `op` whose operand bytes stand after `p_0` (30_encoding R81, R85). -/
def State.instrAt (s : State) : Op → Instr
  | .movLitReg => .movLitReg (s.operandWord 1) (s.operandReg 3)
  | .movRegReg => .movRegReg (s.operandReg 1) (s.operandReg 2)
  | .movRegMem => .movRegMem (s.operandReg 1) (s.operandWord 2)
  | .movMemReg => .movMemReg (s.operandWord 1) (s.operandReg 3)
  | .addRegReg => .addRegReg (s.operandReg 1) (s.operandReg 2)
  | .jmpNotEq => .jmpNotEq (s.operandWord 1) (s.operandWord 3)
  | .pshLit => .pshLit (s.operandWord 1)
  | .pshReg => .pshReg (s.operandReg 1)
  | .pop => .pop (s.operandReg 1)
  | .calLit => .calLit (s.operandWord 1)

/-- The (address, width) of each access of an instruction's effect phase, in order (20_memory R59). -/
def dataAccesses (s : State) : Instr → List (Nat × Nat)
  | .movRegMem _ a => [(a.toNat, 2)]
  | .movMemReg a _ => [(a.toNat, 2)]
  | .pshLit _ => [((s.getReg .sp).toNat, 2)]
  | .pshReg _ => [((s.getReg .sp).toNat, 2)]
  | .pop _ => [((s.getReg .sp).toNat + 2, 2)]
  | .calLit _ => (List.range 10).map fun k => (s.frameAddr k, 2)
  | .movLitReg _ _ => []
  | .movRegReg _ _ => []
  | .addRegReg _ _ => []
  | .jmpNotEq _ _ => []

/-- Every access a step from `s` would make, in order: the opcode fetch, then, if the byte is an opcode, the operand
fetches and the accesses of the effect phase (60_exceptions R175). -/
def State.accesses (s : State) : List (Nat × Nat) :=
  ((s.getReg .ip).toNat, 1) ::
    match s.cfg.opc.lookup (s.mem.read (s.getReg .ip).toNat) with
    | none => []
    | some op =>
      (operandFetches 1 op.format.operands).map (fun f => ((s.byteAddr f.1).toNat, f.2)) ++
        dataAccesses s (s.instrAt op)

/-- The first of these accesses that does not stay inside memory, if there is one. -/
def State.firstMisfit (s : State) (accesses : List (Nat × Nat)) : Option (Nat × Nat) :=
  accesses.find? fun f => ! decide (s.Fits f.1 f.2)

/-- The ten words of the call frame lie at their addresses, and no other byte of memory has changed (45_call R160). -/
def FrameWritten (s t : State) : Prop :=
  WordAt t (s.frameAddr 0) (s.getReg .r1) ∧ WordAt t (s.frameAddr 1) (s.getReg .r2) ∧
    WordAt t (s.frameAddr 2) (s.getReg .r3) ∧ WordAt t (s.frameAddr 3) (s.getReg .r4) ∧
    WordAt t (s.frameAddr 4) (s.getReg .r5) ∧ WordAt t (s.frameAddr 5) (s.getReg .r6) ∧
    WordAt t (s.frameAddr 6) (s.getReg .r7) ∧ WordAt t (s.frameAddr 7) (s.getReg .r8) ∧
    WordAt t (s.frameAddr 8) (s.getReg .ip) ∧ WordAt t (s.frameAddr 9) (s.sfs + 20) ∧
    ∀ x, (∀ k, k < 10 → x ≠ s.frameAddr k ∧ x ≠ s.frameAddr k + 1) → t.mem.read x = s.mem.read x

/-- `t` is `s`, the state after the decode phase, with the whole effect of the instruction and nothing more (R120 to
R123, R130, R140, R150 to R152, R160). -/
def Effect (s t : State) : Instr → Prop
  | .movLitReg lit d => t.getReg d = lit ∧ KeepsBut [d] s t ∧ t.sfs = s.sfs ∧ MemKept s t
  | .movRegReg src d => t.getReg d = s.getReg src ∧ KeepsBut [d] s t ∧ t.sfs = s.sfs ∧ MemKept s t
  | .movRegMem src a =>
    WordAt t a.toNat (s.getReg src) ∧ MemKeptButWord a.toNat s t ∧ KeepsBut [] s t ∧ t.sfs = s.sfs
  | .movMemReg a d => t.getReg d = s.wordValue a.toNat ∧ KeepsBut [d] s t ∧ t.sfs = s.sfs ∧ MemKept s t
  | .addRegReg a b =>
    (t.getReg .acc).toNat = ((s.getReg a).toNat + (s.getReg b).toNat) % 65536 ∧ KeepsBut [.acc] s t ∧
      t.sfs = s.sfs ∧ MemKept s t
  | .jmpNotEq lit target =>
    t.getReg .ip = (if lit = s.getReg .acc then s.getReg .ip else target) ∧ KeepsBut [.ip] s t ∧ t.sfs = s.sfs ∧
      MemKept s t
  | .pshLit lit =>
    WordAt t (s.getReg .sp).toNat lit ∧ MemKeptButWord (s.getReg .sp).toNat s t ∧
      t.getReg .sp = s.getReg .sp - 2 ∧ t.sfs = s.sfs + 2 ∧ KeepsBut [.sp] s t
  | .pshReg src =>
    WordAt t (s.getReg .sp).toNat (s.getReg src) ∧ MemKeptButWord (s.getReg .sp).toNat s t ∧
      t.getReg .sp = s.getReg .sp - 2 ∧ t.sfs = s.sfs + 2 ∧ KeepsBut [.sp] s t
  | .pop d =>
    t.getReg d = s.wordValue ((s.getReg .sp).toNat + 2) ∧ (d ≠ .sp → t.getReg .sp = s.getReg .sp + 2) ∧
      t.sfs = s.sfs - 2 ∧ KeepsBut [.sp, d] s t ∧ MemKept s t
  | .calLit target =>
    FrameWritten s t ∧ t.getReg .sp = s.getReg .sp - 20 ∧ t.getReg .fp = s.getReg .sp - 20 ∧ t.getReg .ip = target ∧
      t.sfs = 0 ∧ KeepsBut [.sp, .fp, .ip] s t

/-! ### The invariant -/

/-- The fault latch and RUN agree (10_state R29, R30, R32): RUN is never Executing between steps; FAULT_CODE is 0 unless
RUN = Faulted, and then it is the code of an error a step can raise, with the information of that error. -/
def State.LatchInv (s : State) : Prop :=
  match s.run with
  | .executing => False
  | .idle => s.faultCode = 0
  | .faulted =>
    (∃ a w, s.Latched (.outOfBounds a w) ∧ (w = 1 ∨ w = 2) ∧ a ≤ 65537 ∧ s.cfg.size < a + w) ∨
      (∃ b p, s.Latched (.invalidOpcode b p) ∧ p.toNat < s.cfg.size ∧ s.cfg.opc.lookup b = none)

/-- What holds between the steps of every run: the parameters are admitted, memory is in its canonical form and lists
nothing outside 0..N-1, RUN and the latch agree. -/
def State.Inv (s : State) : Prop := s.cfg.wf ∧ s.mem.wf ∧ s.mem.below s.cfg.size ∧ s.LatchInv

/-! ### Safe runs -/

/-- A run of `k` steps from `s` has not gone wrong: it ends in a state with RUN = Idle (70_reset_and_hazards R213: a run
that ends Faulted is never a good final state). -/
def RunsWell (k : Nat) (s : State) : Prop := ∃ t, runFor k s = .next t ∧ t.run = .idle

end Sys2Proof.Machine
end

