-- ==== Sys2Proof/Certificates/Slice0/Obligations.lean ====
section
/-! DEFINITION. The statements for the provers, each formalising what the spec says. Terms: Safety.lean. In statements
about `exec`, `s` is the state after the decode phase: `ip` holds the post-fetch value (spec 40_cycle_and_primitives
R101). Statements about `step` start before the fetch. -/

open Sys2Proof Sys2Proof.Machine

/-! ### Encoding (30_encoding) -/

/-- 30_encoding §1 to §3: with opcode values unique, decoding what an instruction encodes to, whatever bytes follow,
gives that instruction and those bytes. -/
def Obligations.EncodeThenDecodeGivesTheInstruction : Prop :=
  ∀ (opc : Opc) (i : Instr) (rest : List Byte), opc.Injective →
    decode opc (encode opc i ++ rest) = .ok i rest

/-- 30_encoding R80 to R83, R85: the decoder reads each of the ten rows' operand bytes, at every value, into the
operands the table gives them, a word operand being `Bk * 256 + B(k+1)` and a register byte any of 0..255. -/
def Obligations.DecodeReadsEveryFormat : Prop :=
  ∀ (opc : Opc) (a b c d : Byte) (rest : List Byte), opc.Injective →
    let word := fun (h l : Byte) => (BitVec.ofNat 16 (h.toNat * 256 + l.toNat) : Word)
    decode opc (opc.byte .movLitReg :: a :: b :: c :: rest) = .ok (.movLitReg (word a b) (Reg.ofByte c)) rest ∧
    decode opc (opc.byte .movRegReg :: a :: b :: rest) = .ok (.movRegReg (Reg.ofByte a) (Reg.ofByte b)) rest ∧
    decode opc (opc.byte .movRegMem :: a :: b :: c :: rest) = .ok (.movRegMem (Reg.ofByte a) (word b c)) rest ∧
    decode opc (opc.byte .movMemReg :: a :: b :: c :: rest) = .ok (.movMemReg (word a b) (Reg.ofByte c)) rest ∧
    decode opc (opc.byte .addRegReg :: a :: b :: rest) = .ok (.addRegReg (Reg.ofByte a) (Reg.ofByte b)) rest ∧
    decode opc (opc.byte .jmpNotEq :: a :: b :: c :: d :: rest) = .ok (.jmpNotEq (word a b) (word c d)) rest ∧
    decode opc (opc.byte .pshLit :: a :: b :: rest) = .ok (.pshLit (word a b)) rest ∧
    decode opc (opc.byte .pshReg :: a :: rest) = .ok (.pshReg (Reg.ofByte a)) rest ∧
    decode opc (opc.byte .pop :: a :: rest) = .ok (.pop (Reg.ofByte a)) rest ∧
    decode opc (opc.byte .calLit :: a :: b :: rest) = .ok (.calLit (word a b)) rest

/-- 30_encoding R80, R82 to R84, R86: what decodes is the instruction's own length of bytes and no more, and those
bytes alone decode to the same instruction. Its canonical encoding has those bytes too, but for a register operand's,
which becomes the byte mod 12; so it is those bytes whenever every register operand's byte, whatever the others, is
below 12. -/
def Obligations.DecodeConsumesExactlyTheInstruction : Prop :=
  ∀ (opc : Opc) (bytes rest : List Byte) (i : Instr), decode opc bytes = .ok i rest →
    ∃ own, bytes = own ++ rest ∧ own.length = i.length ∧ decode opc own = .ok i [] ∧
      (encode opc i).length = own.length ∧
      (∀ k b, own[k]? = some b → (encode opc i)[k]? =
        some (if (k, 1) ∈ operandFetches 1 i.op.format.operands then BitVec.ofNat 8 (b.toNat % 12) else b)) ∧
      ((∀ k b, (k, 1) ∈ operandFetches 1 i.op.format.operands → own[k]? = some b → b.toNat < 12) → encode opc i = own)

/-- 30_encoding R85, spec/opcode_table.json: some words of the table, and a byte with no row. The opcode bytes are the
reference values, PRESUMED (the spec's G1; log 2), and the numbering of a row's bits is log 6. -/
def Obligations.TableWordsDecode : Prop :=
  decodeTableWord 32 0x10515102 = some (.movLitReg 0x5151 .r1) ∧
  decodeTableWord 40 0x1500030040 = some (.jmpNotEq 0x0003 0x0040) ∧
  decodeTableWord 24 0x5E3000 = some (.calLit 0x3000) ∧
  decodeTableWord 16 0x1AFF = some (.pop .r2) ∧
  decodeTableWord 24 0x160102 = none

/-! ### Fetch and memory primitives (40_cycle_and_primitives R102 to R104; 20_memory R52 to R57) -/

/-- R102, R103. -/
def Obligations.FetchReadsAtIpAndAdvances : Prop :=
  ∀ (s : State) (ip : Word),
    (s.cfg.size < ip.toNat + 1 → s.fetch8 ip = .fail (.outOfBounds ip.toNat 1) ip) ∧
    (ip.toNat + 1 ≤ s.cfg.size →
      s.fetch8 ip = .ok (s.mem.read ip.toNat) (BitVec.ofNat 16 ((ip.toNat + 1) % 65536))) ∧
    (s.cfg.size < ip.toNat + 2 → s.fetch16 ip = .fail (.outOfBounds ip.toNat 2) ip) ∧
    (ip.toNat + 2 ≤ s.cfg.size →
      s.fetch16 ip = .ok (s.wordValue ip.toNat) (BitVec.ofNat 16 ((ip.toNat + 2) % 65536)))

/-- R104: every byte names the register of index `byte mod 12`, at byte offset twice that, inside the 24-byte register
block; a failed byte fetch is the only failure. -/
def Obligations.FetchRegResolvesModuloTwelve : Prop :=
  ∀ (s : State) (ip : Word),
    (s.cfg.size < ip.toNat + 1 → fetchReg s.fetch8 ip = .fail (.outOfBounds ip.toNat 1) ip) ∧
    (ip.toNat + 1 ≤ s.cfg.size → ∃ r : Reg,
      fetchReg s.fetch8 ip = .ok r (BitVec.ofNat 16 ((ip.toNat + 1) % 65536)) ∧
      r.index = (s.mem.read ip.toNat).toNat % 12 ∧
      r.byteOffset = ((s.mem.read ip.toNat).toNat % 12) * 2 ∧ r.byteOffset < 24)

/-- R54, R55. -/
def Obligations.ReadsAreBoundsCheckedAndBigEndian : Prop :=
  ∀ (s : State) (a : Nat),
    s.memRead8 a = (if a + 1 > s.cfg.size then .error (.outOfBounds a 1) else .ok (s.mem.read a)) ∧
    s.memRead16 a = (if a + 2 > s.cfg.size then .error (.outOfBounds a 2)
      else .ok (BitVec.ofNat 16 ((s.mem.read a).toNat * 256 + (s.mem.read (a + 1)).toNat)))

/-- R56, R57: in bounds, exactly the target bytes change, and nothing else of the state; out of bounds, an error and
no state. -/
def Obligations.WritesAreBoundsCheckedAndBigEndian : Prop :=
  ∀ (s : State) (a : Nat) (b : Byte) (v : Word),
    (a + 1 > s.cfg.size → s.memWrite8 a b = .error (.outOfBounds a 1)) ∧
    (a + 1 ≤ s.cfg.size → ∃ t, s.memWrite8 a b = .ok t ∧ t.mem.read a = b ∧
      (∀ x, x ≠ a → t.mem.read x = s.mem.read x) ∧ t.setMem s.mem = s) ∧
    (a + 2 > s.cfg.size → s.memWrite16 a v = .error (.outOfBounds a 2)) ∧
    (a + 2 ≤ s.cfg.size → ∃ t, s.memWrite16 a v = .ok t ∧ WordAt t a v ∧ MemKeptButWord a s t ∧
      t.setMem s.mem = s)

/-- 20_memory §2 (R52): a mixed-width access sees exactly the bytes. -/
def Obligations.MixedWidthAccessesAgree : Prop :=
  ∀ (s : State) (a : Nat) (v : Word) (h l : Byte), a + 2 ≤ s.cfg.size →
    (∃ t, s.memWrite16 a v = .ok t ∧ t.memRead16 a = .ok v ∧
      t.memRead8 a = .ok (BitVec.ofNat 8 (v.toNat / 256)) ∧ t.memRead8 (a + 1) = .ok (BitVec.ofNat 8 v.toNat)) ∧
    (∃ t u, s.memWrite8 a h = .ok t ∧ t.memWrite8 (a + 1) l = .ok u ∧
      u.memRead16 a = .ok (BitVec.ofNat 16 (h.toNat * 256 + l.toNat)))

/-! ### Stack primitives (40_cycle_and_primitives R106 to R109) -/

/-- R106: the word goes to the address `sp` held, then `sp` goes down by 2 and SFS up by 2, modulo 65536. -/
def Obligations.PushWritesAtSpThenMovesDown : Prop :=
  ∀ (s : State) (v : Word),
    ((s.getReg .sp).toNat + 2 > s.cfg.size → s.push v = .error (.outOfBounds (s.getReg .sp).toNat 2)) ∧
    ((s.getReg .sp).toNat + 2 ≤ s.cfg.size → ∃ t, s.push v = .ok t ∧ WordAt t (s.getReg .sp).toNat v ∧
      MemKeptButWord (s.getReg .sp).toNat s t ∧ t.getReg .sp = s.getReg .sp - 2 ∧ t.sfs = s.sfs + 2 ∧
      KeepsBut [.sp] s t)

/-- R107, with the spec's decision D5: the address is the unbounded `sp + 2`; in bounds it becomes `sp`, its word is
the answer, SFS goes down by 2 modulo 65536, memory is not changed. -/
def Obligations.PopChecksUnboundedThenMovesUp : Prop :=
  ∀ s : State,
    ((s.getReg .sp).toNat + 2 + 2 > s.cfg.size → s.pop = .error (.outOfBounds ((s.getReg .sp).toNat + 2) 2)) ∧
    ((s.getReg .sp).toNat + 2 + 2 ≤ s.cfg.size → ∃ t,
      s.pop = .ok (s.wordValue ((s.getReg .sp).toNat + 2), t) ∧
      t.getReg .sp = s.getReg .sp + 2 ∧
      (s.cfg.size ≤ 65536 → (t.getReg .sp).toNat = (s.getReg .sp).toNat + 2) ∧
      t.sfs = s.sfs - 2 ∧ t.mem = s.mem ∧ KeepsBut [.sp] s t)

/-- R108, closed form, with the spec's decisions D7 (the last word) and D9 (all or nothing): ten words at `sp -16 2k`,
then `sp` = `fp` = `sp -16 20`, SFS = 0; the smallest `k` whose address is out of bounds is the one reported. -/
def Obligations.PushStateBuildsTheCallFrame : Prop :=
  ∀ s : State,
    (∀ k, k < 10 → s.frameAddr k + 2 > s.cfg.size → (∀ j, j < k → s.frameAddr j + 2 ≤ s.cfg.size) →
      s.pushState = .error (.outOfBounds (s.frameAddr k) 2)) ∧
    ((∀ k, k < 10 → s.frameAddr k + 2 ≤ s.cfg.size) → ∃ t, s.pushState = .ok t ∧
      WordAt t (s.frameAddr 0) (s.getReg .r1) ∧ WordAt t (s.frameAddr 1) (s.getReg .r2) ∧
      WordAt t (s.frameAddr 2) (s.getReg .r3) ∧ WordAt t (s.frameAddr 3) (s.getReg .r4) ∧
      WordAt t (s.frameAddr 4) (s.getReg .r5) ∧ WordAt t (s.frameAddr 5) (s.getReg .r6) ∧
      WordAt t (s.frameAddr 6) (s.getReg .r7) ∧ WordAt t (s.frameAddr 7) (s.getReg .r8) ∧
      WordAt t (s.frameAddr 8) (s.getReg .ip) ∧ WordAt t (s.frameAddr 9) (s.sfs + 20) ∧
      t.getReg .sp = s.getReg .sp - 20 ∧ t.getReg .fp = s.getReg .sp - 20 ∧ t.sfs = 0 ∧ KeepsBut [.sp, .fp] s t ∧
      ∀ x, (∀ k, k < 10 → x ≠ s.frameAddr k ∧ x ≠ s.frameAddr k + 1) → t.mem.read x = s.mem.read x)

/-- R109, an inference the spec marks as its own: LIFO, when no access fails the bounds check and `sp` does not wrap;
SFS returns too. -/
def Obligations.PushedWordsPopInReverse : Prop :=
  ∀ (s : State) (ws : List Word), (s.getReg .sp).toNat + 2 ≤ s.cfg.size → 2 * ws.length ≤ (s.getReg .sp).toNat →
    ∃ t u, s.pushAll ws = .ok t ∧ t.popAll ws.length = .ok (ws.reverse, u) ∧ u.sfs = s.sfs ∧ KeepsBut [] s u

/-! ### Results and frames of the instructions, where they complete (41 to 45) -/

/-- 41_data_transfer R120, every destination (`ip` too, a jump); it completes in every state. -/
def Obligations.MovLitRegResult : Prop :=
  ∀ (s : State) (lit : Word) (d : Reg), ∃ t, exec (.movLitReg lit d) s = .next t ∧
    t.getReg d = lit ∧ KeepsBut [d] s t ∧ t.sfs = s.sfs ∧ MemKept s t

/-- 41_data_transfer R121: a copy, the source keeping its value; it completes in every state. -/
def Obligations.MovRegRegResult : Prop :=
  ∀ (s : State) (src d : Reg), ∃ t, exec (.movRegReg src d) s = .next t ∧
    t.getReg d = s.getReg src ∧ t.getReg src = s.getReg src ∧ KeepsBut [d] s t ∧ t.sfs = s.sfs ∧ MemKept s t

/-- 41_data_transfer R122, R124: the word goes to the address operand itself, high byte first. -/
def Obligations.MovRegMemResult : Prop :=
  ∀ (s : State) (src : Reg) (a : Word), effectiveAddress a + 2 ≤ s.cfg.size →
    ∃ t, exec (.movRegMem src a) s = .next t ∧ WordAt t (effectiveAddress a) (s.getReg src) ∧
      MemKeptButWord (effectiveAddress a) s t ∧ effectiveAddress a = a.toNat ∧ KeepsBut [] s t ∧ t.sfs = s.sfs

/-- 41_data_transfer R123, R124. -/
def Obligations.MovMemRegResult : Prop :=
  ∀ (s : State) (a : Word) (d : Reg), a.toNat + 2 ≤ s.cfg.size →
    ∃ t, exec (.movMemReg a d) s = .next t ∧ t.getReg d = s.wordValue a.toNat ∧ KeepsBut [d] s t ∧
      t.sfs = s.sfs ∧ MemKept s t

/-- 42_arithmetic R130: the sum modulo 65536 of the two registers as they were, into `acc`; it completes in every
state. -/
def Obligations.AddRegRegResult : Prop :=
  ∀ (s : State) (a b : Reg), ∃ t, exec (.addRegReg a b) s = .next t ∧
    (t.getReg .acc).toNat = ((s.getReg a).toNat + (s.getReg b).toNat) % 65536 ∧ KeepsBut [.acc] s t ∧
    t.sfs = s.sfs ∧ MemKept s t

/-- 43_branch R140: taken exactly when the literal differs from `acc`; it completes in every state. -/
def Obligations.JmpNotEqResult : Prop :=
  ∀ (s : State) (lit target : Word), ∃ t, exec (.jmpNotEq lit target) s = .next t ∧
    (lit ≠ s.getReg .acc → t.getReg .ip = target) ∧ (lit = s.getReg .acc → t.getReg .ip = s.getReg .ip) ∧
    KeepsBut [.ip] s t ∧ t.sfs = s.sfs ∧ MemKept s t

/-- 44_stack R150. -/
def Obligations.PshLitResult : Prop :=
  ∀ (s : State) (lit : Word), (s.getReg .sp).toNat + 2 ≤ s.cfg.size →
    ∃ t, exec (.pshLit lit) s = .next t ∧ WordAt t (s.getReg .sp).toNat lit ∧
      MemKeptButWord (s.getReg .sp).toNat s t ∧ t.getReg .sp = s.getReg .sp - 2 ∧ t.sfs = s.sfs + 2 ∧
      KeepsBut [.sp] s t

/-- 44_stack R151: with `sp` as the source, the word is the value `sp` had. -/
def Obligations.PshRegResult : Prop :=
  ∀ (s : State) (src : Reg), (s.getReg .sp).toNat + 2 ≤ s.cfg.size →
    ∃ t, exec (.pshReg src) s = .next t ∧ WordAt t (s.getReg .sp).toNat (s.getReg src) ∧
      MemKeptButWord (s.getReg .sp).toNat s t ∧ t.getReg .sp = s.getReg .sp - 2 ∧ t.sfs = s.sfs + 2 ∧
      KeepsBut [.sp] s t

/-- 44_stack R152: the register write comes after the update of `sp`, so a pop into `sp` leaves the popped word there.
-/
def Obligations.PopResult : Prop :=
  ∀ (s : State) (d : Reg), (s.getReg .sp).toNat + 4 ≤ s.cfg.size →
    ∃ t, exec (.pop d) s = .next t ∧ t.getReg d = s.wordValue ((s.getReg .sp).toNat + 2) ∧
      (d ≠ .sp → t.getReg .sp = s.getReg .sp + 2) ∧ t.sfs = s.sfs - 2 ∧ KeepsBut [.sp, d] s t ∧ MemKept s t

/-- 45_call R160: the ten words of the frame, `sp` = `fp` = `sp -16 20`, SFS = 0, `ip` = target; `r1`..`r8` and `acc`
keep their values. -/
def Obligations.CalLitResult : Prop :=
  ∀ (s : State) (target : Word), (∀ k, k < 10 → s.frameAddr k + 2 ≤ s.cfg.size) →
    ∃ t, exec (.calLit target) s = .next t ∧
      WordAt t (s.frameAddr 0) (s.getReg .r1) ∧ WordAt t (s.frameAddr 1) (s.getReg .r2) ∧
      WordAt t (s.frameAddr 2) (s.getReg .r3) ∧ WordAt t (s.frameAddr 3) (s.getReg .r4) ∧
      WordAt t (s.frameAddr 4) (s.getReg .r5) ∧ WordAt t (s.frameAddr 5) (s.getReg .r6) ∧
      WordAt t (s.frameAddr 6) (s.getReg .r7) ∧ WordAt t (s.frameAddr 7) (s.getReg .r8) ∧
      WordAt t (s.frameAddr 8) (s.getReg .ip) ∧ WordAt t (s.frameAddr 9) (s.sfs + 20) ∧
      t.getReg .sp = s.getReg .sp - 20 ∧ t.getReg .fp = s.getReg .sp - 20 ∧ t.getReg .ip = target ∧ t.sfs = 0 ∧
      KeepsBut [.sp, .fp, .ip] s t ∧
      ∀ x, (∀ k, k < 10 → x ≠ s.frameAddr k ∧ x ≠ s.frameAddr k + 1) → t.mem.read x = s.mem.read x

/-- 45_call R162, an inference the spec marks as its own: the saved frame size leads from the new `fp` back to the
previous frame base, the caller's `sp` plus the bytes SFS counts. -/
def Obligations.SavedFrameSizeReachesThePreviousBase : Prop :=
  ∀ (s : State) (target : Word), (∀ k, k < 10 → s.frameAddr k + 2 ≤ s.cfg.size) →
    ∃ t, exec (.calLit target) s = .next t ∧
      t.getReg .fp + t.wordValue (t.getReg .fp + 2).toNat = s.getReg .sp + s.sfs

/-- 41_data_transfer R123: the round trip of a register through memory, whatever runs between the two changing neither
those bytes nor the parameters. -/
def Obligations.StoreThenLoadGivesTheStoredWord : Prop :=
  ∀ (s t u : State) (src d : Reg) (a : Word), a.toNat + 2 ≤ s.cfg.size → exec (.movRegMem src a) s = .next t →
    u.cfg = t.cfg → u.mem.read a.toNat = t.mem.read a.toNat → u.mem.read (a.toNat + 1) = t.mem.read (a.toNat + 1) →
    ∃ v, exec (.movMemReg a d) u = .next v ∧ v.getReg d = s.getReg src

/-- 44_stack R153, an inference the spec marks as its own: a PSH_LIT or PSH_REG, and a POP when `sp`, SFS and the stack
bytes are as the push left them: the word comes back and `sp` and SFS are as before. -/
def Obligations.PushThenPopGivesTheWordBack : Prop :=
  ∀ (s t u : State) (push : Instr) (v : Word) (d : Reg),
    (push = .pshLit v ∨ ∃ src, push = .pshReg src ∧ s.getReg src = v) →
    (s.getReg .sp).toNat + 2 ≤ s.cfg.size → 2 ≤ (s.getReg .sp).toNat →
    exec push s = .next t → u.cfg = t.cfg → u.getReg .sp = t.getReg .sp → u.sfs = t.sfs →
    u.mem.read (s.getReg .sp).toNat = t.mem.read (s.getReg .sp).toNat →
    u.mem.read ((s.getReg .sp).toNat + 1) = t.mem.read ((s.getReg .sp).toNat + 1) →
    ∃ w, exec (.pop d) u = .next w ∧ w.getReg d = v ∧ w.sfs = s.sfs ∧ (d ≠ .sp → w.getReg .sp = s.getReg .sp)

/-- 20_memory R63: a stored word is what the next fetch at that address reads. -/
def Obligations.StoreIsSeenByTheNextFetch : Prop :=
  ∀ (s t : State) (src : Reg) (a : Word), a.toNat + 2 ≤ s.cfg.size → exec (.movRegMem src a) s = .next t →
    t.fetch16 a = .ok (s.getReg src) (a + 2) ∧ t.fetch8 a = .ok (BitVec.ofNat 8 ((s.getReg src).toNat / 256)) (a + 1)

/-! ### Whole steps, every case of each instruction (41 to 45, 60 R176) -/

/-- 41_data_transfer R120: what a step at a MOV_LIT_REG does, in every case. What a failed step leaves is
60_exceptions R176: that RUN is then Faulted and the latch holds the error are the spec's decisions D10 and D11, and
that the failure is a next state is the model's choice (log 7). -/
def Obligations.StepOfMovLitReg : Prop :=
  ∀ s : State, s.cfg.opc.Injective → s.AtOpcode .movLitReg →
    (¬ s.Fits (s.byteAddr 1).toNat 2 → ∃ t, step s = .next t ∧
      FailedFrom s t (s.byteAddr 1) (.outOfBounds (s.byteAddr 1).toNat 2)) ∧
    (s.Fits (s.byteAddr 1).toNat 2 → ¬ s.Fits (s.byteAddr 3).toNat 1 → ∃ t, step s = .next t ∧
      FailedFrom s t (s.byteAddr 3) (.outOfBounds (s.byteAddr 3).toNat 1)) ∧
    (s.Fits (s.byteAddr 1).toNat 2 → s.Fits (s.byteAddr 3).toNat 1 → ∃ t, step s = .next t ∧
      t.getReg (s.operandReg 3) = s.operandWord 1 ∧
      (s.operandReg 3 ≠ .ip → t.getReg .ip = s.byteAddr 4) ∧
      KeepsBut [.ip, s.operandReg 3] s t ∧ t.sfs = s.sfs ∧ MemKept s t)

/-- 41_data_transfer R121. What a failed step leaves is 60_exceptions R176: that RUN is then Faulted and the latch
holds the error are the spec's decisions D10 and D11, and that the failure is a next state is the model's choice (log
7). -/
def Obligations.StepOfMovRegReg : Prop :=
  ∀ s : State, s.cfg.opc.Injective → s.AtOpcode .movRegReg →
    (¬ s.Fits (s.byteAddr 1).toNat 1 → ∃ t, step s = .next t ∧
      FailedFrom s t (s.byteAddr 1) (.outOfBounds (s.byteAddr 1).toNat 1)) ∧
    (s.Fits (s.byteAddr 1).toNat 1 → ¬ s.Fits (s.byteAddr 2).toNat 1 → ∃ t, step s = .next t ∧
      FailedFrom s t (s.byteAddr 2) (.outOfBounds (s.byteAddr 2).toNat 1)) ∧
    (s.Fits (s.byteAddr 1).toNat 1 → s.Fits (s.byteAddr 2).toNat 1 → ∃ t, step s = .next t ∧
      t.getReg (s.operandReg 2) = s.sourceValue 3 (s.operandReg 1) ∧
      (s.operandReg 2 ≠ .ip → t.getReg .ip = s.byteAddr 3) ∧
      KeepsBut [.ip, s.operandReg 2] s t ∧ t.sfs = s.sfs ∧ MemKept s t)

/-- 41_data_transfer R122. What a failed step leaves is 60_exceptions R176: that RUN is then Faulted and the latch
holds the error are the spec's decisions D10 and D11, and that the failure is a next state is the model's choice (log
7). -/
def Obligations.StepOfMovRegMem : Prop :=
  ∀ s : State, s.cfg.opc.Injective → s.AtOpcode .movRegMem →
    (¬ s.Fits (s.byteAddr 1).toNat 1 → ∃ t, step s = .next t ∧
      FailedFrom s t (s.byteAddr 1) (.outOfBounds (s.byteAddr 1).toNat 1)) ∧
    (s.Fits (s.byteAddr 1).toNat 1 → ¬ s.Fits (s.byteAddr 2).toNat 2 → ∃ t, step s = .next t ∧
      FailedFrom s t (s.byteAddr 2) (.outOfBounds (s.byteAddr 2).toNat 2)) ∧
    (s.Fits (s.byteAddr 1).toNat 1 → s.Fits (s.byteAddr 2).toNat 2 → ¬ s.Fits (s.operandWord 2).toNat 2 →
      ∃ t, step s = .next t ∧ FailedFrom s t (s.byteAddr 4) (.outOfBounds (s.operandWord 2).toNat 2)) ∧
    (s.Fits (s.byteAddr 1).toNat 1 → s.Fits (s.byteAddr 2).toNat 2 → s.Fits (s.operandWord 2).toNat 2 →
      ∃ t, step s = .next t ∧ WordAt t (s.operandWord 2).toNat (s.sourceValue 4 (s.operandReg 1)) ∧
        MemKeptButWord (s.operandWord 2).toNat s t ∧ t.getReg .ip = s.byteAddr 4 ∧
        KeepsBut [.ip] s t ∧ t.sfs = s.sfs)

/-- 41_data_transfer R123, its round trip too: the word that lies at the address, such as MOV_REG_MEM leaves there, is
the word loaded. What a failed step leaves is 60_exceptions R176: that RUN is then Faulted and the latch holds the
error are the spec's decisions D10 and D11, and that the failure is a next state is the model's choice (log 7). -/
def Obligations.StepOfMovMemReg : Prop :=
  ∀ s : State, s.cfg.opc.Injective → s.AtOpcode .movMemReg →
    (¬ s.Fits (s.byteAddr 1).toNat 2 → ∃ t, step s = .next t ∧
      FailedFrom s t (s.byteAddr 1) (.outOfBounds (s.byteAddr 1).toNat 2)) ∧
    (s.Fits (s.byteAddr 1).toNat 2 → ¬ s.Fits (s.byteAddr 3).toNat 1 → ∃ t, step s = .next t ∧
      FailedFrom s t (s.byteAddr 3) (.outOfBounds (s.byteAddr 3).toNat 1)) ∧
    (s.Fits (s.byteAddr 1).toNat 2 → s.Fits (s.byteAddr 3).toNat 1 → ¬ s.Fits (s.operandWord 1).toNat 2 →
      ∃ t, step s = .next t ∧ FailedFrom s t (s.byteAddr 4) (.outOfBounds (s.operandWord 1).toNat 2)) ∧
    (s.Fits (s.byteAddr 1).toNat 2 → s.Fits (s.byteAddr 3).toNat 1 → s.Fits (s.operandWord 1).toNat 2 →
      ∃ t, step s = .next t ∧ t.getReg (s.operandReg 3) = s.wordValue (s.operandWord 1).toNat ∧
        (∀ v, WordAt s (s.operandWord 1).toNat v → t.getReg (s.operandReg 3) = v) ∧
        (s.operandReg 3 ≠ .ip → t.getReg .ip = s.byteAddr 4) ∧
        KeepsBut [.ip, s.operandReg 3] s t ∧ t.sfs = s.sfs ∧ MemKept s t)

/-- 42_arithmetic R130. What a failed step leaves is 60_exceptions R176: that RUN is then Faulted and the latch holds
the error are the spec's decisions D10 and D11, and that the failure is a next state is the model's choice (log 7). -/
def Obligations.StepOfAddRegReg : Prop :=
  ∀ s : State, s.cfg.opc.Injective → s.AtOpcode .addRegReg →
    (¬ s.Fits (s.byteAddr 1).toNat 1 → ∃ t, step s = .next t ∧
      FailedFrom s t (s.byteAddr 1) (.outOfBounds (s.byteAddr 1).toNat 1)) ∧
    (s.Fits (s.byteAddr 1).toNat 1 → ¬ s.Fits (s.byteAddr 2).toNat 1 → ∃ t, step s = .next t ∧
      FailedFrom s t (s.byteAddr 2) (.outOfBounds (s.byteAddr 2).toNat 1)) ∧
    (s.Fits (s.byteAddr 1).toNat 1 → s.Fits (s.byteAddr 2).toNat 1 → ∃ t, step s = .next t ∧
      (t.getReg .acc).toNat =
        ((s.sourceValue 3 (s.operandReg 1)).toNat + (s.sourceValue 3 (s.operandReg 2)).toNat) % 65536 ∧
      t.getReg .ip = s.byteAddr 3 ∧ KeepsBut [.ip, .acc] s t ∧ t.sfs = s.sfs ∧ MemKept s t)

/-- 43_branch R140; a target outside memory fails the next step, at its opcode fetch. What a failed step, this one or
the next, leaves is 60_exceptions R176: that RUN is then Faulted and the latch holds the error are the spec's
decisions D10 and D11, and that the failure is a next state is the model's choice (log 7). -/
def Obligations.StepOfJmpNotEq : Prop :=
  ∀ s : State, s.cfg.opc.Injective → s.AtOpcode .jmpNotEq →
    (¬ s.Fits (s.byteAddr 1).toNat 2 → ∃ t, step s = .next t ∧
      FailedFrom s t (s.byteAddr 1) (.outOfBounds (s.byteAddr 1).toNat 2)) ∧
    (s.Fits (s.byteAddr 1).toNat 2 → ¬ s.Fits (s.byteAddr 3).toNat 2 → ∃ t, step s = .next t ∧
      FailedFrom s t (s.byteAddr 3) (.outOfBounds (s.byteAddr 3).toNat 2)) ∧
    (s.Fits (s.byteAddr 1).toNat 2 → s.Fits (s.byteAddr 3).toNat 2 → ∃ t, step s = .next t ∧
      (s.operandWord 1 ≠ s.getReg .acc → t.getReg .ip = s.operandWord 3) ∧
      (s.operandWord 1 = s.getReg .acc → t.getReg .ip = s.byteAddr 5) ∧
      (s.operandWord 1 ≠ s.getReg .acc → ¬ s.Fits (s.operandWord 3).toNat 1 → ∃ u, step t = .next u ∧
        FailedFrom t u (s.operandWord 3) (.outOfBounds (s.operandWord 3).toNat 1)) ∧
      KeepsBut [.ip] s t ∧ t.sfs = s.sfs ∧ MemKept s t)

/-- 44_stack R150. What a failed step leaves is 60_exceptions R176: that RUN is then Faulted and the latch holds the
error are the spec's decisions D10 and D11, and that the failure is a next state is the model's choice (log 7). -/
def Obligations.StepOfPshLit : Prop :=
  ∀ s : State, s.cfg.opc.Injective → s.AtOpcode .pshLit →
    (¬ s.Fits (s.byteAddr 1).toNat 2 → ∃ t, step s = .next t ∧
      FailedFrom s t (s.byteAddr 1) (.outOfBounds (s.byteAddr 1).toNat 2)) ∧
    (s.Fits (s.byteAddr 1).toNat 2 → ¬ s.Fits (s.getReg .sp).toNat 2 → ∃ t, step s = .next t ∧
      FailedFrom s t (s.byteAddr 3) (.outOfBounds (s.getReg .sp).toNat 2)) ∧
    (s.Fits (s.byteAddr 1).toNat 2 → s.Fits (s.getReg .sp).toNat 2 → ∃ t, step s = .next t ∧
      WordAt t (s.getReg .sp).toNat (s.operandWord 1) ∧ MemKeptButWord (s.getReg .sp).toNat s t ∧
      t.getReg .sp = s.getReg .sp - 2 ∧ t.sfs = s.sfs + 2 ∧ t.getReg .ip = s.byteAddr 3 ∧ KeepsBut [.ip, .sp] s t)

/-- 44_stack R151. What a failed step leaves is 60_exceptions R176: that RUN is then Faulted and the latch holds the
error are the spec's decisions D10 and D11, and that the failure is a next state is the model's choice (log 7). -/
def Obligations.StepOfPshReg : Prop :=
  ∀ s : State, s.cfg.opc.Injective → s.AtOpcode .pshReg →
    (¬ s.Fits (s.byteAddr 1).toNat 1 → ∃ t, step s = .next t ∧
      FailedFrom s t (s.byteAddr 1) (.outOfBounds (s.byteAddr 1).toNat 1)) ∧
    (s.Fits (s.byteAddr 1).toNat 1 → ¬ s.Fits (s.getReg .sp).toNat 2 → ∃ t, step s = .next t ∧
      FailedFrom s t (s.byteAddr 2) (.outOfBounds (s.getReg .sp).toNat 2)) ∧
    (s.Fits (s.byteAddr 1).toNat 1 → s.Fits (s.getReg .sp).toNat 2 → ∃ t, step s = .next t ∧
      WordAt t (s.getReg .sp).toNat (s.sourceValue 2 (s.operandReg 1)) ∧ MemKeptButWord (s.getReg .sp).toNat s t ∧
      t.getReg .sp = s.getReg .sp - 2 ∧ t.sfs = s.sfs + 2 ∧ t.getReg .ip = s.byteAddr 2 ∧ KeepsBut [.ip, .sp] s t)

/-- 44_stack R152; the pop's address is the unbounded `sp + 2` (the spec's decision D5) and a failing one moves
nothing (D9). What a failed step leaves is 60_exceptions R176: that RUN is then Faulted and the latch holds the error
are the spec's decisions D10 and D11, and that the failure is a next state is the model's choice (log 7). -/
def Obligations.StepOfPop : Prop :=
  ∀ s : State, s.cfg.opc.Injective → s.AtOpcode .pop →
    (¬ s.Fits (s.byteAddr 1).toNat 1 → ∃ t, step s = .next t ∧
      FailedFrom s t (s.byteAddr 1) (.outOfBounds (s.byteAddr 1).toNat 1)) ∧
    (s.Fits (s.byteAddr 1).toNat 1 → ¬ s.Fits ((s.getReg .sp).toNat + 2) 2 → ∃ t, step s = .next t ∧
      FailedFrom s t (s.byteAddr 2) (.outOfBounds ((s.getReg .sp).toNat + 2) 2)) ∧
    (s.Fits (s.byteAddr 1).toNat 1 → s.Fits ((s.getReg .sp).toNat + 2) 2 → ∃ t, step s = .next t ∧
      t.getReg (s.operandReg 1) = s.wordValue ((s.getReg .sp).toNat + 2) ∧
      (s.operandReg 1 ≠ .sp → t.getReg .sp = s.getReg .sp + 2) ∧
      (s.operandReg 1 ≠ .ip → t.getReg .ip = s.byteAddr 2) ∧
      t.sfs = s.sfs - 2 ∧ KeepsBut [.ip, .sp, s.operandReg 1] s t ∧ MemKept s t)

/-- 45_call R160: the saved `ip` is the address of the instruction after the CAL_LIT, the last word SFS + 20 (the
spec's decision D7); a failing push leaves no word written and the target not loaded (D9). What a failed step leaves
is 60_exceptions R176: that RUN is then Faulted and the latch holds the error are the spec's decisions D10 and D11,
and that the failure is a next state is the model's choice (log 7). -/
def Obligations.StepOfCalLit : Prop :=
  ∀ s : State, s.cfg.opc.Injective → s.AtOpcode .calLit →
    (¬ s.Fits (s.byteAddr 1).toNat 2 → ∃ t, step s = .next t ∧
      FailedFrom s t (s.byteAddr 1) (.outOfBounds (s.byteAddr 1).toNat 2)) ∧
    (s.Fits (s.byteAddr 1).toNat 2 → ∀ k, k < 10 → ¬ s.Fits (s.frameAddr k) 2 →
      (∀ j, j < k → s.Fits (s.frameAddr j) 2) → ∃ t, step s = .next t ∧
        FailedFrom s t (s.byteAddr 3) (.outOfBounds (s.frameAddr k) 2)) ∧
    (s.Fits (s.byteAddr 1).toNat 2 → (∀ k, k < 10 → s.Fits (s.frameAddr k) 2) → ∃ t, step s = .next t ∧
      WordAt t (s.frameAddr 0) (s.getReg .r1) ∧ WordAt t (s.frameAddr 1) (s.getReg .r2) ∧
      WordAt t (s.frameAddr 2) (s.getReg .r3) ∧ WordAt t (s.frameAddr 3) (s.getReg .r4) ∧
      WordAt t (s.frameAddr 4) (s.getReg .r5) ∧ WordAt t (s.frameAddr 5) (s.getReg .r6) ∧
      WordAt t (s.frameAddr 6) (s.getReg .r7) ∧ WordAt t (s.frameAddr 7) (s.getReg .r8) ∧
      WordAt t (s.frameAddr 8) (s.byteAddr 3) ∧ WordAt t (s.frameAddr 9) (s.sfs + 20) ∧
      t.getReg .sp = s.getReg .sp - 20 ∧ t.getReg .fp = s.getReg .sp - 20 ∧ t.sfs = 0 ∧
      t.getReg .ip = s.operandWord 1 ∧ KeepsBut [.ip, .sp, .fp] s t ∧
      ∀ x, (∀ k, k < 10 → x ≠ s.frameAddr k ∧ x ≠ s.frameAddr k + 1) → t.mem.read x = s.mem.read x)

/-! ### The cycle (40_cycle_and_primitives, 60_exceptions) -/

/-- 40_cycle_and_primitives §1: when the bytes at `ip` decode to an instruction and each of its fetches stays inside
memory, the step is that instruction's handler, run with RUN = Executing and `ip` just past the instruction, and then
RUN back to Idle unless the handler failed. The instruction may continue from address 65535 to address 0. -/
def Obligations.StepRunsTheDecodedInstruction : Prop :=
  ∀ (s : State) (i : Instr), s.cfg.wf → s.run = .idle → i.wf = true →
    decode s.cfg.opc (s.bytesAtIp i.length) = .ok i [] →
    (∀ f ∈ i.op.fetches, s.Fits (s.byteAddr f.1).toNat f.2) →
    step s = finishStep (exec i ((s.setRun .executing).setReg .ip (s.byteAddr i.length)))

/-- 40_cycle_and_primitives R100, 10_state R29: a step request outside a step always leaves a state, and never one
that is mid-step; there is no other stop. That a step which fails leaves a state too is the model's choice (log 7). -/
def Obligations.EveryStepRequestCompletes : Prop :=
  ∀ s : State, s.run ≠ .executing → ∃ t, step s = .next t ∧ t.run ≠ .executing ∧ t.cfg = s.cfg

/-- 10_state §4, 60_exceptions §4, the spec's decision D10: in Faulted a step request, however often repeated, changes
nothing. -/
def Obligations.FaultedStaysAsItIs : Prop :=
  ∀ (k : Nat) (s : State), s.run = .faulted → stepFor k s = .next s

/-- 60_exceptions R173: a fetched byte that no instruction has fails the step with `ip` one past it, and no operand is
fetched. That RUN is then Faulted and what the latch holds are the spec's decisions D10 and D11 (R176), and that the
failure is a next state is the model's choice (log 7). -/
def Obligations.UnlistedOpcodeFailsTheStep : Prop :=
  ∀ s : State, s.run = .idle → (s.getReg .ip).toNat + 1 ≤ s.cfg.size →
    (∀ op : Op, s.cfg.opc.byte op ≠ s.mem.read (s.getReg .ip).toNat) →
    ∃ t, step s = .next t ∧
      FailedFrom s t (s.byteAddr 1) (.invalidOpcode (s.mem.read (s.getReg .ip).toNat) (s.getReg .ip))

/-- 60_exceptions §3, the table of R176, with the spec's decisions D10 (RUN = Faulted) and D11 (the latch), the failure
a next state by the model's choice (log 7): an opcode fetch that does not fit fails the step; so does the first operand
fetch that does not fit, whichever of the instruction's operands it is. The error names that fetch's address and width,
and `ip` is left at that address. -/
def Obligations.FirstFetchThatDoesNotFitFailsTheStep : Prop :=
  ∀ s : State, s.run = .idle →
    (¬ s.Fits (s.getReg .ip).toNat 1 → ∃ t, step s = .next t ∧
      FailedFrom s t (s.getReg .ip) (.outOfBounds (s.getReg .ip).toNat 1)) ∧
    ∀ (op : Op) (done later : List (Nat × Nat)) (k w : Nat), s.Fits (s.getReg .ip).toNat 1 →
      s.cfg.opc.lookup (s.mem.read (s.getReg .ip).toNat) = some op → op.fetches = (0, 1) :: done ++ (k, w) :: later →
      (∀ f ∈ done, s.Fits (s.byteAddr f.1).toNat f.2) → ¬ s.Fits (s.byteAddr k).toNat w →
      ∃ t, step s = .next t ∧ FailedFrom s t (s.byteAddr k) (.outOfBounds (s.byteAddr k).toNat w)

/-- 60_exceptions §2, §3, with the spec's decisions D9 to D11 (log 7): whatever fails a step, only `ip`, RUN and the
fault latch differ afterwards. The latch holds the error of this step: the first of its accesses that does not fit, or
the byte at its `ip`, which could be fetched and is no opcode. -/
def Obligations.FailedStepChangesOnlyIp : Prop :=
  ∀ s t : State, s.run = .idle → step s = .next t → t.run = .faulted →
    ∃ e, FailedFrom s t (t.getReg .ip) e ∧
      match e with
      | .outOfBounds a w => s.firstMisfit s.accesses = some (a, w)
      | .invalidOpcode b p => p = s.getReg .ip ∧ s.Fits p.toNat 1 ∧ b = s.mem.read p.toNat ∧ s.cfg.opc.lookup b = none

/-- 40_cycle_and_primitives §5 (R110, the spec's decision D9; log 7): the effect phase is all-or-nothing, for every
instruction. When each of its accesses fits, the whole effect is there and nothing more; otherwise nothing is but the
failure, with the first access that does not fit. -/
def Obligations.EffectPhaseIsAllOrNothing : Prop :=
  ∀ (i : Instr) (s : State), ∃ t, exec i s = .next t ∧
    match s.firstMisfit (dataAccesses s i) with
    | none => Effect s t i
    | some (a, w) => FailedFrom s t (s.getReg .ip) (.outOfBounds a w)

/-! ### What no instruction does (10_state) -/

/-- 10_state §8 (R27, R36), 20_memory §6 (R59), tables the spec derives from its instruction rules: an instruction
writes no register but its destination and those R36 lists for it; SFS is written by pushes, pops and calls alone;
memory by stores, pushes and calls alone; the parameters by none. -/
def Obligations.InstructionsWriteOnlyWhatTheyMay : Prop :=
  ∀ (i : Instr) (s t : State), exec i s = .next t →
    (∀ r, r ∉ i.writes → t.getReg r = s.getReg r) ∧ (i.op.writesSfs = false → t.sfs = s.sfs) ∧
      (i.op.writesMemory = false → t.mem = s.mem) ∧ t.cfg = s.cfg

/-- 10_state §3 (R28, an inference the spec marks as its own): SFS is observable only through the word a call pushes.
A step that runs no CAL_LIT leaves, from two states that differ in SFS alone, two states that differ in SFS alone, and
by the same amount. -/
def Obligations.SfsIsHiddenFromAllButCalls : Prop :=
  ∀ (s t : State) (v : Word), (∀ target ip, s.fetchInstr ≠ .ok (.calLit target) ip) → step s = .next t →
    ∃ u, step (s.setSfs v) = .next u ∧ KeepsBut [] t u ∧ MemKept t u ∧ u.sfs - v = t.sfs - s.sfs

/-! ### Invariants -/

/-- 10_state, 20_memory, 60_exceptions: every step keeps the invariant: admitted parameters, canonical memory inside
0..N-1, RUN never Executing between steps, and FAULT_CODE 0 exactly when RUN is Idle, else the code and information of
an error that a step can raise (never UnknownRegister). -/
def Obligations.StepKeepsTheInvariant : Prop :=
  ∀ s t : State, s.Inv → step s = .next t → t.Inv

/-- The invariant holds after reset. -/
def Obligations.ResetMeetsTheInvariant : Prop := State.reset.Inv

/-- The invariant holds in every launch state, whatever registers were set, and after a reset in mid-run. -/
def Obligations.LaunchAndResetMeetTheInvariant : Prop :=
  (∀ (c : Config) (image : List Byte) (sets : List (BitVec 4 × Word)) (l : Launched),
    launch c image sets = .next l → l.core.Inv) ∧ ∀ s : State, s.Inv → s.resetCore.Inv

/-! ### Reset, launch, the host's surface (10_state R34; 60_exceptions R186 to R188; 70_reset_and_hazards) -/

/-- 10_state §6 (R34), the values the spec gives (SFS, RUN and FAULT_CODE by its decisions D6, D10, D11; memory's
zeros are the loader's, D17 and log 5), with the reference N = 65536. FAULT_INFO is left out: the spec gives it none
(log 3). -/
def Obligations.ResetLeavesTheGivenValues : Prop :=
  (∀ r, State.reset.getReg r = if r = .sp ∨ r = .fp then 0xFFFE else 0) ∧ State.reset.sfs = 0 ∧
    State.reset.run = .idle ∧ State.reset.faultCode = 0 ∧ ∀ a, State.reset.mem.read a = 0

/-- 70_reset_and_hazards §1 (R200, with the spec's decisions D10, D13, D17): reset from any state; and in Faulted
nothing else helps: a step request changes nothing. -/
def Obligations.ResetIsTheWayOutOfFaulted : Prop :=
  ∀ s : State, (∀ r, r ≠ .sp → r ≠ .fp → s.resetCore.getReg r = 0) ∧
    s.resetCore.getReg .sp = BitVec.ofNat 16 (s.cfg.size - 2) ∧
    s.resetCore.getReg .fp = BitVec.ofNat 16 (s.cfg.size - 2) ∧
    s.resetCore.sfs = 0 ∧ s.resetCore.run = .idle ∧ s.resetCore.faultCode = 0 ∧ s.resetCore.mem = s.mem ∧
    s.resetCore.cfg = s.cfg ∧ (s.run = .faulted → step s = .next s)

/-- 70_reset_and_hazards §2, §6 (R201, R204, R215, R216; the spec's decisions D3, D14, D17): a core is built exactly
for admitted parameters and an image that fits; then memory is the image followed by zeros and the core is as reset
leaves it, but that a register the host has set holds the last value it was set to. Each set is answered in turn:
UnknownRegister for an index of 12 or more, which changes nothing, else no error. -/
def Obligations.LaunchPlacesTheImageAndResetsTheCore : Prop :=
  ∀ (c : Config) (image : List Byte) (sets : List (BitVec 4 × Word)),
    ((∃ l, launch c image sets = .next l) ↔ c.wf ∧ image.length ≤ c.size) ∧
    ∀ l, launch c image sets = .next l →
      (∀ a, l.core.mem.read a = image.getD a 0) ∧ l.core.cfg = c ∧ l.core.run = .idle ∧ l.core.faultCode = 0 ∧
      l.core.sfs = 0 ∧
      (∀ r : Reg, l.core.getReg r = match (sets.filter fun p => p.1.toNat = r.index).getLast? with
        | some p => p.2
        | none => if r = .sp ∨ r = .fp then BitVec.ofNat 16 (c.size - 2) else 0) ∧
      l.reports = sets.map fun p => if 12 ≤ p.1.toNat then some .unknownRegister else none

/-- R186. -/
def Obligations.DumpRegistersListsTheTwelveInOrder : Prop :=
  ∀ s : State, s.run ≠ .executing → s.dumpRegisters = .ok
    [(.ip, s.getReg .ip), (.acc, s.getReg .acc), (.r1, s.getReg .r1), (.r2, s.getReg .r2), (.r3, s.getReg .r3),
      (.r4, s.getReg .r4), (.r5, s.getReg .r5), (.r6, s.getReg .r6), (.r7, s.getReg .r7), (.r8, s.getReg .r8),
      (.sp, s.getReg .sp), (.fp, s.getReg .fp)]

/-- 60_exceptions §8 (R187, the spec's decision D14): a window inside memory reads its bytes in order, 8 of them by
default; one that reaches past N is reported as OutOfBounds and returns no bytes. -/
def Obligations.DumpMemoryWindowReadsOrReports : Prop :=
  ∀ (s : State) (a n : Nat), s.run ≠ .executing →
    (a + n ≤ s.cfg.size → ∃ bs, s.dumpMemoryWindow a n = .ok bs ∧ bs.length = n ∧
      ∀ k, k < n → bs[k]? = some (s.mem.read (a + k))) ∧
    (s.cfg.size < a + n → s.dumpMemoryWindow a n = .error .outOfBounds) ∧
    s.dumpMemoryWindow a = s.dumpMemoryWindow a 8

/-- 60_exceptions §8 (R172, R188, the spec's decision D14): the port reads each of the twelve registers by index, and
12..15 report UnknownRegister. A set, which is a move of the launch only, gives the register of its index that value and
changes nothing else; at 12..15 it reports UnknownRegister and changes nothing. -/
def Obligations.RegisterPortKnowsTwelveNames : Prop :=
  (∀ (s : State) (i : BitVec 4), s.run ≠ .executing →
    (∀ r : Reg, i.toNat = r.index → s.portGet i = .ok (s.getReg r)) ∧
    (12 ≤ i.toNat → s.portGet i = .error .unknownRegister)) ∧
  ∀ (c : Config) (image : List Byte) (i : BitVec 4) (v : Word) (l m : Launched),
    launch c image [] = .next l → launch c image [(i, v)] = .next m →
    (∀ r : Reg, i.toNat = r.index → m.reports = [none] ∧ m.core.getReg r = v ∧ KeepsBut [r] l.core m.core ∧
      m.core.sfs = l.core.sfs ∧ m.core.mem = l.core.mem) ∧
    (12 ≤ i.toNat → m.reports = [some .unknownRegister] ∧ m.core = l.core)

/-- 70_reset_and_hazards §5 (R213, the spec's decision D15): a run that ends at its first Faulted state ends where the
same number of step requests leaves the machine, so a run that went wrong is never taken for a good one, nor the
reverse. -/
def Obligations.RunEndsAtTheFirstFault : Prop :=
  ∀ (k : Nat) (s : State), runFor k s = stepFor k s

/-- 60_exceptions R175, an inference the spec marks as its own, with its decisions D9 to D11 (log 7): a step's
accesses are checked in order, and the first that does not fit is the error; with none, a byte that is no opcode is;
with neither, the step has the whole effect of the instruction that stands at `ip`, from the post-fetch `ip`. -/
def Obligations.FirstFailingCheckDecidesTheStep : Prop :=
  ∀ s : State, s.run = .idle → ∃ t, step s = .next t ∧
    match s.firstMisfit s.accesses, s.cfg.opc.lookup (s.mem.read (s.getReg .ip).toNat) with
    | some (a, w), _ => FailedFrom s t (t.getReg .ip) (.outOfBounds a w)
    | none, none =>
      FailedFrom s t (s.byteAddr 1) (.invalidOpcode (s.mem.read (s.getReg .ip).toNat) (s.getReg .ip))
    | none, some op => Effect (s.setReg .ip (s.byteAddr op.length)) t (s.instrAt op)

/-- 70_reset_and_hazards §6 (R214, R215), 10_state §4 (R30, R32), with the spec's decisions D10, D11, D13: when the
core is not Executing the host reads RUN, FAULT_CODE and, of FAULT_INFO, whatever the latched error gives; a field
that has no meaning reads as it may. -/
def Obligations.HostReadsRunAndTheLatch : Prop :=
  ∀ s : State, s.run ≠ .executing → s.runState = .ok s.run ∧
    ∃ a w o, s.faultLatch = .ok (s.faultCode, a, w, o) ∧ ∀ e, s.Latched e →
      match e with
      | .outOfBounds x y => s.faultCode = s.cfg.codes.outOfBounds ∧ a.toNat = x ∧ w.toNat = y
      | .invalidOpcode b p => s.faultCode = s.cfg.codes.invalidOpcode ∧ o = b ∧ a.toNat = p.toNat
end

