-- ==== Sys2Proof/Laws/Words.lean ====
section
/-! SUPPORT. The laws of words, bytes and the modular sums, stated as BitVec and Nat facts. -/

namespace Sys2Proof

theorem Word.hi_toNat (v : Word) : (Word.hi v).toNat = v.toNat / 256 := by
  have := v.isLt
  simp only [Word.hi, BitVec.extractLsb'_toNat, Nat.shiftRight_eq_div_pow]
  omega

theorem Word.lo_toNat (v : Word) : (Word.lo v).toNat = v.toNat % 256 := by
  simp [Word.lo, BitVec.extractLsb'_toNat]

/-- `h ++ l` = `h * 256 + l` (00_scope R9). -/
theorem Word.ofBytes_toNat (h l : Byte) : (Word.ofBytes h l).toNat = h.toNat * 256 + l.toNat := by
  have := l.isLt
  simp only [Word.ofBytes, BitVec.toNat_append]
  rw [← Nat.shiftLeft_add_eq_or_of_lt (by omega), Nat.shiftLeft_eq]

@[simp] theorem Word.ofBytes_hi_lo (v : Word) : Word.ofBytes (Word.hi v) (Word.lo v) = v := by
  apply BitVec.eq_of_toNat_eq
  rw [Word.ofBytes_toNat, Word.hi_toNat, Word.lo_toNat]
  omega

@[simp] theorem Word.hi_ofBytes (h l : Byte) : Word.hi (Word.ofBytes h l) = h := by
  apply BitVec.eq_of_toNat_eq
  have := l.isLt
  rw [Word.hi_toNat, Word.ofBytes_toNat]
  omega

@[simp] theorem Word.lo_ofBytes (h l : Byte) : Word.lo (Word.ofBytes h l) = l := by
  apply BitVec.eq_of_toNat_eq
  have := l.isLt
  rw [Word.lo_toNat, Word.ofBytes_toNat]
  omega

namespace Machine

theorem sum16_eq (a b : Word) : sum16 a b = a + b := by
  apply BitVec.eq_of_toNat_eq
  simp [sum16, BitVec.toNat_add]

theorem diff16_eq (a b : Word) : diff16 a b = a - b := by
  apply BitVec.eq_of_toNat_eq
  have := a.isLt
  have := b.isLt
  simp only [diff16, BitVec.toNat_ofNat, BitVec.toNat_sub]
  omega

theorem sum16_toNat (a b : Word) : (sum16 a b).toNat = (a.toNat + b.toNat) % 65536 := by
  simp [sum16]

theorem diff16_toNat (a b : Word) : (diff16 a b).toNat = (65536 + a.toNat - b.toNat) % 65536 := by
  simp [diff16]

theorem differs_eq_true (a b : Word) : differs a b = true ↔ a ≠ b := by
  simp [differs, BitVec.toNat_inj]

end Machine

end Sys2Proof
end

