-- ==== Sys2Proof/Laws/Decode.lean ====
section
/-! SUPPORT. The laws of decoding's parts: registers, the opcode map, one fetch after another. -/

namespace Sys2Proof

@[simp] theorem Reg.ofByte_toByte (r : Reg) : Reg.ofByte r.toByte = r := by cases r <;> rfl

theorem Reg.index_lt (r : Reg) : r.index < 12 := by cases r <;> decide

theorem Reg.index_inj {r q : Reg} (h : r.index = q.index) : r = q := by
  cases r <;> cases q <;> first | rfl | simp [Reg.index] at h

theorem Op.mem_all (op : Op) : op ∈ Op.all := by cases op <;> decide

/-- The opcode map finds an operation only at its own byte (30_encoding R85). -/
theorem Opc.byte_of_lookup {opc : Opc} {b : Byte} {op : Op} (h : opc.lookup b = some op) : opc.byte op = b := by
  have := List.find?_some h
  simpa using this

/-- A byte no operation has finds nothing (30_encoding R89). -/
theorem Opc.lookup_eq_none {opc : Opc} {b : Byte} : opc.lookup b = none ↔ ∀ op, opc.byte op ≠ b := by
  simp only [Opc.lookup, List.find?_eq_none, beq_iff_eq]
  exact ⟨fun h op => h op (Op.mem_all op), fun h op _ => h op⟩

theorem Opc.byte_inj {opc : Opc} (hi : opc.Injective) {op op' : Op} (h : opc.byte op = opc.byte op') : op = op' :=
  List.inj_on_of_nodup_map hi (Op.mem_all op) (Op.mem_all op') h

/-- With opcode values unique, each byte finds its operation (30_encoding R88). -/
theorem Opc.lookup_byte {opc : Opc} (hi : opc.Injective) (op : Op) : opc.lookup (opc.byte op) = some op := by
  cases h : opc.lookup (opc.byte op) with
  | none => exact absurd rfl (Opc.lookup_eq_none.1 h op)
  | some op' => rw [Opc.byte_inj hi (Opc.byte_of_lookup h)]

@[simp] theorem Fetched.andThen_ok {ε σ α β : Type} (a : α) (q : σ) (f : α → σ → Fetched ε σ β) :
    (Fetched.ok a q).andThen f = f a q := rfl

@[simp] theorem Fetched.andThen_fail {ε σ α β : Type} (e : ε) (q : σ) (f : α → σ → Fetched ε σ β) :
    (Fetched.fail e q).andThen f = .fail e q := rfl

/-- What is fetched in two stages was fetched in each. -/
theorem Fetched.andThen_eq_ok {ε σ α β : Type} {r : Fetched ε σ α} {f : α → σ → Fetched ε σ β} {b : β} {q : σ} :
    r.andThen f = .ok b q ↔ ∃ a p, r = .ok a p ∧ f a p = .ok b q := by
  cases r <;> simp [Fetched.andThen]

/-- A two-stage fetch fails in its first stage or in its second. -/
theorem Fetched.andThen_eq_fail {ε σ α β : Type} {r : Fetched ε σ α} {f : α → σ → Fetched ε σ β} {e : ε} {q : σ} :
    r.andThen f = .fail e q ↔ r = .fail e q ∨ ∃ a p, r = .ok a p ∧ f a p = .fail e q := by
  cases r <;> simp [Fetched.andThen]

theorem fetchReg_eq {ε σ : Type} (fetch8 : σ → Fetched ε σ Byte) (q : σ) :
    fetchReg fetch8 q = (fetch8 q).andThen fun b q => .ok (Reg.ofByte b) q := rfl

@[simp] theorem takeByte_cons (b : Byte) (bs : List Byte) : takeByte (b :: bs) = .ok b bs := rfl
@[simp] theorem takeWord_cons (h l : Byte) (bs : List Byte) : takeWord (h :: l :: bs) = .ok (Word.ofBytes h l) bs := rfl

/-- A list of bytes decodes by its first byte alone, then its operands (30_encoding R86). -/
theorem decode_cons (opc : Opc) (b : Byte) (bs : List Byte) :
    decode opc (b :: bs) = match opc.lookup b with
      | none => .fail (.invalidOpcode b) bs
      | some op => decodeOperands takeByte takeWord op bs := rfl

end Sys2Proof
end

