-- ==== Sys2Proof/Laws/Memory.lean ====
section
/-! SUPPORT. The laws of memory: a read after a write, the canonical form kept by every operation, and equal reads make
equal memories. -/

namespace Sys2Proof.Machine

theorem Memory.read_erase (m : Memory) (a x : Nat) :
    (m.erase a).read x = if x = a then unlistedByte else m.read x := by
  induction m with
  | nil => simp [Memory.erase, Memory.read]
  | cons c m ih =>
    obtain ⟨y, v⟩ := c
    simp only [Memory.erase, List.filter_cons] at ih ⊢
    by_cases hy : y = a
    · subst hy
      simp only [bne_self_eq_false, Bool.false_eq_true, ↓reduceIte, ih, Memory.read]
      by_cases hx : x = y
      · simp [hx]
      · simp [hx, Ne.symm hx]
    · simp only [bne_iff_ne, ne_eq, hy, not_false_eq_true, ↓reduceIte, Memory.read, ih]
      by_cases hx : x = a
      · subst hx; simp [hy]
      · simp [hx]

theorem Memory.mem_insert {m : Memory} {a : Nat} {b : Byte} {c : Host.Cell} :
    c ∈ m.insert a b ↔ c = (a, b) ∨ c ∈ m := by
  induction m with
  | nil => simp [Memory.insert]
  | cons d m ih =>
    obtain ⟨y, v⟩ := d
    unfold Memory.insert
    split
    · simp only [List.mem_cons, ih]; tauto
    · simp only [List.mem_cons]

theorem Memory.read_insert (m : Memory) (a x : Nat) (b : Byte) (h : ∀ c ∈ m, c.1 ≠ a) :
    (m.insert a b).read x = if x = a then b else m.read x := by
  induction m with
  | nil => simp [Memory.insert, Memory.read, eq_comm]
  | cons c m ih =>
    obtain ⟨y, v⟩ := c
    have hy : y ≠ a := h (y, v) (by simp)
    unfold Memory.insert
    split
    · simp only [Memory.read, ih fun c hc => h c (by simp [hc])]
      by_cases hx : x = a
      · subst hx; simp [hy]
      · simp [hx]
    · simp [Memory.read, eq_comm]

theorem Memory.mem_erase {m : Memory} {a : Nat} {c : Host.Cell} : c ∈ m.erase a ↔ c ∈ m ∧ c.1 ≠ a := by
  simp [Memory.erase]

/-- Read after write, at the address written and at every other (20_memory R56). -/
theorem Memory.read_write (m : Memory) (a x : Nat) (b : Byte) :
    (m.write a b).read x = if x = a then b else m.read x := by
  unfold Memory.write
  split
  · next h => rw [Memory.read_erase, h]
  · rw [Memory.read_insert _ _ _ _ fun c hc => (Memory.mem_erase.1 hc).2, Memory.read_erase]
    split <;> simp_all

@[simp] theorem Memory.read_write_same (m : Memory) (a : Nat) (b : Byte) : (m.write a b).read a = b := by
  simp [Memory.read_write]

theorem Memory.read_write_other (m : Memory) {a x : Nat} (b : Byte) (h : x ≠ a) :
    (m.write a b).read x = m.read x := by
  simp [Memory.read_write, h]

@[simp] theorem Memory.read_nil (x : Nat) : Memory.read [] x = 0 := rfl

theorem Memory.wf_nil : Memory.wf [] := by simp [Memory.wf]

theorem Memory.wf_erase {m : Memory} (h : m.wf) (a : Nat) : (m.erase a).wf :=
  ⟨h.1.filter _, fun c hc => h.2 c (Memory.mem_erase.1 hc).1⟩

theorem Memory.pairwise_insert {m : Memory} {a : Nat} {b : Byte} (h : m.Pairwise fun c d => c.1 < d.1)
    (ha : ∀ c ∈ m, c.1 ≠ a) : (m.insert a b).Pairwise fun c d => c.1 < d.1 := by
  induction m with
  | nil => simp [Memory.insert]
  | cons c m ih =>
    obtain ⟨y, v⟩ := c
    have hy : y ≠ a := ha (y, v) (by simp)
    obtain ⟨h1, h2⟩ := List.pairwise_cons.1 h
    unfold Memory.insert
    split
    · next hlt =>
      refine List.pairwise_cons.2 ⟨fun d hd => ?_, ih h2 fun c hc => ha c (by simp [hc])⟩
      rcases Memory.mem_insert.1 hd with rfl | hd
      · exact hlt
      · exact h1 d hd
    · next hge =>
      refine List.pairwise_cons.2 ⟨fun d hd => ?_, h⟩
      rcases List.mem_cons.1 hd with rfl | hd
      · simp only at hge ⊢; omega
      · have := h1 d hd; simp only at this hge ⊢; omega

/-- Every write keeps the canonical form. -/
theorem Memory.wf_write {m : Memory} (h : m.wf) (a : Nat) (b : Byte) : (m.write a b).wf := by
  unfold Memory.write
  split
  · exact Memory.wf_erase h a
  · next hb =>
    refine ⟨Memory.pairwise_insert (Memory.wf_erase h a).1 fun c hc => (Memory.mem_erase.1 hc).2, fun c hc => ?_⟩
    rcases Memory.mem_insert.1 hc with rfl | hc
    · exact hb
    · exact (Memory.wf_erase h a).2 c hc

/-- Every write below `n` lists nothing at `n` or above. -/
theorem Memory.below_write {m : Memory} {n : Nat} (h : m.below n) {a : Nat} (ha : a < n) (b : Byte) :
    (m.write a b).below n := by
  intro c hc
  unfold Memory.write at hc
  split at hc
  · exact h c (Memory.mem_erase.1 hc).1
  · rcases Memory.mem_insert.1 hc with rfl | hc
    · exact ha
    · exact h c (Memory.mem_erase.1 hc).1

/-- Loading keeps the canonical form. -/
theorem Memory.wf_load {m : Memory} (h : m.wf) (a : Nat) (bs : List Byte) : (m.load a bs).wf := by
  induction bs generalizing m a with
  | nil => exact h
  | cons b bs ih => exact ih (Memory.wf_write h a b) _

theorem Memory.below_load {m : Memory} {n : Nat} (h : m.below n) (a : Nat) (bs : List Byte) (ha : a + bs.length ≤ n) :
    (m.load a bs).below n := by
  induction bs generalizing m a with
  | nil => exact h
  | cons b bs ih =>
    simp only [List.length_cons] at ha
    exact ih (Memory.below_write h (by omega) b) _ (by omega)

/-- What a load leaves at each address (70_reset_and_hazards R204). -/
theorem Memory.read_load (m : Memory) (a : Nat) (bs : List Byte) (x : Nat) :
    (m.load a bs).read x = if a ≤ x ∧ x < a + bs.length then bs.getD (x - a) 0 else m.read x := by
  induction bs generalizing m a with
  | nil => simp [Memory.load]
  | cons b bs ih =>
    simp only [Memory.load, ih, List.length_cons, Memory.read_write]
    rcases Nat.lt_trichotomy x a with h | rfl | h
    · rw [if_neg (by omega), if_neg (by omega), if_neg (by omega)]
    · simp
    · obtain ⟨k, rfl⟩ : ∃ k, x = a + 1 + k := ⟨x - (a + 1), by omega⟩
      have e1 : a + 1 + k - (a + 1) = k := by omega
      have e2 : a + 1 + k - a = k + 1 := by omega
      simp only [e1, e2, List.getD_cons_succ]
      by_cases hk : k < bs.length
      · rw [if_pos (by omega), if_pos (by omega)]
      · rw [if_neg (by omega), if_neg (by omega), if_neg (by omega)]

theorem Memory.read_of_mem {m : Memory} (h : m.wf) {a : Nat} {b : Byte} (hc : (a, b) ∈ m) : m.read a = b := by
  induction m with
  | nil => simp at hc
  | cons c m ih =>
    obtain ⟨y, v⟩ := c
    obtain ⟨h1, h2⟩ := List.pairwise_cons.1 h.1
    rcases List.mem_cons.1 hc with he | hc
    · cases he; simp [Memory.read]
    · have hlt := h1 _ hc
      simp only at hlt
      rw [Memory.read, if_neg (by omega)]
      exact ih ⟨h2, fun c hc => h.2 c (by simp [hc])⟩ hc

theorem Memory.mem_of_read {m : Memory} {a : Nat} (h : m.read a ≠ unlistedByte) : (a, m.read a) ∈ m := by
  induction m with
  | nil => exact absurd rfl h
  | cons c m ih =>
    obtain ⟨y, v⟩ := c
    unfold Memory.read at h ⊢
    split
    · next e => subst e; simp
    · next e => rw [if_neg e] at h; exact List.mem_cons_of_mem _ (ih h)

/-- In the canonical form, an address that is not listed reads as an unlisted one, and one that is reads otherwise: two
memories that read alike everywhere are equal data. -/
theorem Memory.ext_read {m n : Memory} (hm : m.wf) (hn : n.wf) (h : ∀ x, m.read x = n.read x) : m = n := by
  have key : ∀ c : Host.Cell, c ∈ m ↔ c ∈ n := by
    rintro ⟨a, b⟩
    constructor
    · intro hc
      have e := Memory.read_of_mem hm hc
      have hb := hm.2 _ hc
      have := Memory.mem_of_read (m := n) (a := a) (by rw [← h, e]; exact hb)
      rwa [← h, e] at this
    · intro hc
      have e := Memory.read_of_mem hn hc
      have hb := hn.2 _ hc
      have := Memory.mem_of_read (m := m) (a := a) (by rw [h, e]; exact hb)
      rwa [h, e] at this
  have nd : ∀ {l : Memory}, l.wf → l.Nodup := fun hl => hl.1.imp fun h e => by rw [e] at h; exact absurd h (by omega)
  exact ((List.perm_ext_iff_of_nodup (nd hm) (nd hn)).2 key).eq_of_pairwise
    (fun a b _ _ hab hba => absurd hab (by omega)) hm.1 hn.1

end Sys2Proof.Machine
end

