-- ==== Sys2Proof/Laws/State.lean ====
section
/-! SUPPORT. One lemma per field per update of State, each true by unfolding: no proof unfolds a record update. -/

namespace Sys2Proof.Machine

/-! ### setReg -/

@[simp] theorem State.setReg_cfg (s : State) (r : Reg) (v : Word) : (s.setReg r v).cfg = s.cfg := rfl
@[simp] theorem State.setReg_regs (s : State) (r : Reg) (v : Word) : (s.setReg r v).regs = s.regs.set r v := rfl
@[simp] theorem State.setReg_sfs (s : State) (r : Reg) (v : Word) : (s.setReg r v).sfs = s.sfs := rfl
@[simp] theorem State.setReg_run (s : State) (r : Reg) (v : Word) : (s.setReg r v).run = s.run := rfl
@[simp] theorem State.setReg_faultCode (s : State) (r : Reg) (v : Word) : (s.setReg r v).faultCode = s.faultCode := rfl
@[simp] theorem State.setReg_faultAddr (s : State) (r : Reg) (v : Word) : (s.setReg r v).faultAddr = s.faultAddr := rfl
@[simp] theorem State.setReg_faultWidth (s : State) (r : Reg) (v : Word) : (s.setReg r v).faultWidth = s.faultWidth := rfl
@[simp] theorem State.setReg_faultOpcode (s : State) (r : Reg) (v : Word) : (s.setReg r v).faultOpcode = s.faultOpcode := rfl
@[simp] theorem State.setReg_mem (s : State) (r : Reg) (v : Word) : (s.setReg r v).mem = s.mem := rfl
@[simp] theorem State.setReg_freeDraws (s : State) (r : Reg) (v : Word) : (s.setReg r v).freeDraws = s.freeDraws := rfl

/-! ### setSfs -/

@[simp] theorem State.setSfs_cfg (s : State) (v : Word) : (s.setSfs v).cfg = s.cfg := rfl
@[simp] theorem State.setSfs_regs (s : State) (v : Word) : (s.setSfs v).regs = s.regs := rfl
@[simp] theorem State.setSfs_sfs (s : State) (v : Word) : (s.setSfs v).sfs = v := rfl
@[simp] theorem State.setSfs_run (s : State) (v : Word) : (s.setSfs v).run = s.run := rfl
@[simp] theorem State.setSfs_faultCode (s : State) (v : Word) : (s.setSfs v).faultCode = s.faultCode := rfl
@[simp] theorem State.setSfs_faultAddr (s : State) (v : Word) : (s.setSfs v).faultAddr = s.faultAddr := rfl
@[simp] theorem State.setSfs_faultWidth (s : State) (v : Word) : (s.setSfs v).faultWidth = s.faultWidth := rfl
@[simp] theorem State.setSfs_faultOpcode (s : State) (v : Word) : (s.setSfs v).faultOpcode = s.faultOpcode := rfl
@[simp] theorem State.setSfs_mem (s : State) (v : Word) : (s.setSfs v).mem = s.mem := rfl
@[simp] theorem State.setSfs_freeDraws (s : State) (v : Word) : (s.setSfs v).freeDraws = s.freeDraws := rfl
@[simp] theorem State.setSfs_setSfs (s : State) (v w : Word) : (s.setSfs v).setSfs w = s.setSfs w := rfl
theorem State.setReg_setSfs (s : State) (r : Reg) (v w : Word) :
    (s.setSfs w).setReg r v = (s.setReg r v).setSfs w := rfl

/-! ### setRun -/

@[simp] theorem State.setRun_cfg (s : State) (x : RunState) : (s.setRun x).cfg = s.cfg := rfl
@[simp] theorem State.setRun_regs (s : State) (x : RunState) : (s.setRun x).regs = s.regs := rfl
@[simp] theorem State.setRun_sfs (s : State) (x : RunState) : (s.setRun x).sfs = s.sfs := rfl
@[simp] theorem State.setRun_run (s : State) (x : RunState) : (s.setRun x).run = x := rfl
@[simp] theorem State.setRun_faultCode (s : State) (x : RunState) : (s.setRun x).faultCode = s.faultCode := rfl
@[simp] theorem State.setRun_faultAddr (s : State) (x : RunState) : (s.setRun x).faultAddr = s.faultAddr := rfl
@[simp] theorem State.setRun_faultWidth (s : State) (x : RunState) : (s.setRun x).faultWidth = s.faultWidth := rfl
@[simp] theorem State.setRun_faultOpcode (s : State) (x : RunState) : (s.setRun x).faultOpcode = s.faultOpcode := rfl
@[simp] theorem State.setRun_mem (s : State) (x : RunState) : (s.setRun x).mem = s.mem := rfl
@[simp] theorem State.setRun_freeDraws (s : State) (x : RunState) : (s.setRun x).freeDraws = s.freeDraws := rfl

/-! ### setMem -/

@[simp] theorem State.setMem_cfg (s : State) (m : Memory) : (s.setMem m).cfg = s.cfg := rfl
@[simp] theorem State.setMem_regs (s : State) (m : Memory) : (s.setMem m).regs = s.regs := rfl
@[simp] theorem State.setMem_sfs (s : State) (m : Memory) : (s.setMem m).sfs = s.sfs := rfl
@[simp] theorem State.setMem_run (s : State) (m : Memory) : (s.setMem m).run = s.run := rfl
@[simp] theorem State.setMem_faultCode (s : State) (m : Memory) : (s.setMem m).faultCode = s.faultCode := rfl
@[simp] theorem State.setMem_faultAddr (s : State) (m : Memory) : (s.setMem m).faultAddr = s.faultAddr := rfl
@[simp] theorem State.setMem_faultWidth (s : State) (m : Memory) : (s.setMem m).faultWidth = s.faultWidth := rfl
@[simp] theorem State.setMem_faultOpcode (s : State) (m : Memory) : (s.setMem m).faultOpcode = s.faultOpcode := rfl
@[simp] theorem State.setMem_mem (s : State) (m : Memory) : (s.setMem m).mem = m := rfl
@[simp] theorem State.setMem_freeDraws (s : State) (m : Memory) : (s.setMem m).freeDraws = s.freeDraws := rfl

/-! ### raise, outOfBounds -/

@[simp] theorem State.raise_outOfBounds_faultCode (s : State) (a w : Nat) :
    (s.raise (.outOfBounds a w)).faultCode = s.cfg.codes.outOfBounds := rfl
@[simp] theorem State.raise_outOfBounds_faultAddr (s : State) (a w : Nat) :
    (s.raise (.outOfBounds a w)).faultAddr = BitVec.ofNat 17 a := rfl
@[simp] theorem State.raise_outOfBounds_faultWidth (s : State) (a w : Nat) :
    (s.raise (.outOfBounds a w)).faultWidth = BitVec.ofNat 2 w := rfl
@[simp] theorem State.raise_outOfBounds_faultOpcode (s : State) (a w : Nat) :
    (s.raise (.outOfBounds a w)).faultOpcode = Config.freeFaultOpcode s.freeDraws := rfl
/-! ### raise, invalidOpcode -/

@[simp] theorem State.raise_invalidOpcode_faultCode (s : State) (b : Byte) (p : Word) :
    (s.raise (.invalidOpcode b p)).faultCode = s.cfg.codes.invalidOpcode := rfl
@[simp] theorem State.raise_invalidOpcode_faultAddr (s : State) (b : Byte) (p : Word) :
    (s.raise (.invalidOpcode b p)).faultAddr = BitVec.ofNat 17 p.toNat := rfl
@[simp] theorem State.raise_invalidOpcode_faultWidth (s : State) (b : Byte) (p : Word) :
    (s.raise (.invalidOpcode b p)).faultWidth = Config.freeFaultWidth s.freeDraws := rfl
@[simp] theorem State.raise_invalidOpcode_faultOpcode (s : State) (b : Byte) (p : Word) :
    (s.raise (.invalidOpcode b p)).faultOpcode = b := rfl

/-! ### raise, either error -/

@[simp] theorem State.raise_cfg (s : State) (e : StepError) : (s.raise e).cfg = s.cfg := by cases e <;> rfl
@[simp] theorem State.raise_regs (s : State) (e : StepError) : (s.raise e).regs = s.regs := by cases e <;> rfl
@[simp] theorem State.raise_sfs (s : State) (e : StepError) : (s.raise e).sfs = s.sfs := by cases e <;> rfl
@[simp] theorem State.raise_mem (s : State) (e : StepError) : (s.raise e).mem = s.mem := by cases e <;> rfl
@[simp] theorem State.raise_run (s : State) (e : StepError) : (s.raise e).run = .faulted := by cases e <;> rfl
@[simp] theorem State.raise_freeDraws (s : State) (e : StepError) : (s.raise e).freeDraws = s.freeDraws + 1 := by cases e <;> rfl

/-! ### reset -/

@[simp] theorem State.resetCore_cfg (s : State) : s.resetCore.cfg = s.cfg := rfl
@[simp] theorem State.resetCore_regs (s : State) : s.resetCore.regs = RegFile.reset s.cfg.size := rfl
@[simp] theorem State.resetCore_sfs (s : State) : s.resetCore.sfs = 0 := rfl
@[simp] theorem State.resetCore_run (s : State) : s.resetCore.run = .idle := rfl
@[simp] theorem State.resetCore_faultCode (s : State) : s.resetCore.faultCode = 0 := rfl
@[simp] theorem State.resetCore_faultAddr (s : State) : s.resetCore.faultAddr = 0 := rfl
@[simp] theorem State.resetCore_faultWidth (s : State) : s.resetCore.faultWidth = 0 := rfl
@[simp] theorem State.resetCore_faultOpcode (s : State) : s.resetCore.faultOpcode = 0 := rfl
@[simp] theorem State.resetCore_mem (s : State) : s.resetCore.mem = s.mem := rfl
@[simp] theorem State.resetCore_freeDraws (s : State) : s.resetCore.freeDraws = s.freeDraws := rfl

/-! ### Registers -/

/-- The register file reads back what was written, and nothing else changes (10_state R22). -/
theorem RegFile.get_set (f : RegFile) (r q : Reg) (v : Word) :
    (f.set r v).get q = if q = r then v else f.get q := by
  cases r <;> cases q <;> rfl

theorem State.getReg_setReg (s : State) (r q : Reg) (v : Word) :
    (s.setReg r v).getReg q = if q = r then v else s.getReg q := RegFile.get_set ..

@[simp] theorem State.getReg_setReg_same (s : State) (r : Reg) (v : Word) : (s.setReg r v).getReg r = v := by
  simp [State.getReg_setReg]

theorem State.getReg_setReg_other (s : State) {r q : Reg} (v : Word) (h : q ≠ r) :
    (s.setReg r v).getReg q = s.getReg q := by
  simp [State.getReg_setReg, h]

@[simp] theorem State.getReg_setSfs (s : State) (v : Word) (q : Reg) : (s.setSfs v).getReg q = s.getReg q := rfl
@[simp] theorem State.getReg_setRun (s : State) (x : RunState) (q : Reg) : (s.setRun x).getReg q = s.getReg q := rfl
@[simp] theorem State.getReg_setMem (s : State) (m : Memory) (q : Reg) : (s.setMem m).getReg q = s.getReg q := rfl
@[simp] theorem State.getReg_raise (s : State) (e : StepError) (q : Reg) : (s.raise e).getReg q = s.getReg q := by
  cases e <;> rfl

/-- Two register files that read alike are equal. -/
theorem RegFile.ext_get {f g : RegFile} (h : ∀ r, f.get r = g.get r) : f = g := by
  cases f
  cases g
  have h1 := h .ip; have h2 := h .acc; have h3 := h .r1; have h4 := h .r2; have h5 := h .r3; have h6 := h .r4
  have h7 := h .r5; have h8 := h .r6; have h9 := h .r7; have h10 := h .r8; have h11 := h .sp; have h12 := h .fp
  simp only [RegFile.get] at *
  subst_vars
  rfl

/-! ### enterStep, leaveStep -/

@[simp] theorem State.enterStep_cfg (s : State) (p : Word) : (s.enterStep p).cfg = s.cfg := rfl
@[simp] theorem State.enterStep_regs (s : State) (p : Word) : (s.enterStep p).regs = s.regs.set .ip p := rfl
@[simp] theorem State.enterStep_sfs (s : State) (p : Word) : (s.enterStep p).sfs = s.sfs := rfl
@[simp] theorem State.enterStep_run (s : State) (p : Word) : (s.enterStep p).run = .executing := rfl
@[simp] theorem State.enterStep_faultCode (s : State) (p : Word) : (s.enterStep p).faultCode = s.faultCode := rfl
@[simp] theorem State.enterStep_faultAddr (s : State) (p : Word) : (s.enterStep p).faultAddr = s.faultAddr := rfl
@[simp] theorem State.enterStep_faultWidth (s : State) (p : Word) : (s.enterStep p).faultWidth = s.faultWidth := rfl
@[simp] theorem State.enterStep_faultOpcode (s : State) (p : Word) : (s.enterStep p).faultOpcode = s.faultOpcode := rfl
@[simp] theorem State.enterStep_mem (s : State) (p : Word) : (s.enterStep p).mem = s.mem := rfl
@[simp] theorem State.enterStep_freeDraws (s : State) (p : Word) : (s.enterStep p).freeDraws = s.freeDraws := rfl
@[simp] theorem State.getReg_enterStep_ip (s : State) (p : Word) : (s.enterStep p).getReg .ip = p := rfl
theorem State.getReg_enterStep_other (s : State) (p : Word) {q : Reg} (h : q ≠ .ip) :
    (s.enterStep p).getReg q = s.getReg q := by
  simp [State.enterStep, State.getReg_setReg, h]

@[simp] theorem State.leaveStep_cfg (s : State) : s.leaveStep.cfg = s.cfg := by unfold State.leaveStep; split <;> rfl
@[simp] theorem State.leaveStep_regs (s : State) : s.leaveStep.regs = s.regs := by unfold State.leaveStep; split <;> rfl
@[simp] theorem State.leaveStep_sfs (s : State) : s.leaveStep.sfs = s.sfs := by unfold State.leaveStep; split <;> rfl
theorem State.leaveStep_run (s : State) : s.leaveStep.run = if s.run = .executing then .idle else s.run := by
  unfold State.leaveStep; split <;> rfl
@[simp] theorem State.leaveStep_faultCode (s : State) : s.leaveStep.faultCode = s.faultCode := by unfold State.leaveStep; split <;> rfl
@[simp] theorem State.leaveStep_faultAddr (s : State) : s.leaveStep.faultAddr = s.faultAddr := by unfold State.leaveStep; split <;> rfl
@[simp] theorem State.leaveStep_faultWidth (s : State) : s.leaveStep.faultWidth = s.faultWidth := by unfold State.leaveStep; split <;> rfl
@[simp] theorem State.leaveStep_faultOpcode (s : State) : s.leaveStep.faultOpcode = s.faultOpcode := by unfold State.leaveStep; split <;> rfl
@[simp] theorem State.leaveStep_mem (s : State) : s.leaveStep.mem = s.mem := by unfold State.leaveStep; split <;> rfl
@[simp] theorem State.leaveStep_freeDraws (s : State) : s.leaveStep.freeDraws = s.freeDraws := by unfold State.leaveStep; split <;> rfl
@[simp] theorem State.getReg_leaveStep (s : State) (q : Reg) : s.leaveStep.getReg q = s.getReg q := by
  unfold State.leaveStep; split <;> rfl

end Sys2Proof.Machine
end

