-- ==== Sys2Proof/Laws/Ops.lean ====
section
/-! SUPPORT. For each shared operation, what it answers and when: in bounds, the one result; out of bounds, the one
error. Proofs cite these and do not unfold the operations. -/

namespace Sys2Proof.Machine

/-! ### Memory primitives -/

theorem State.memRead8_ok {s : State} {a : Nat} (h : a + 1 ≤ s.cfg.size) : s.memRead8 a = .ok (s.mem.read a) := by
  simp [State.memRead8, h]

theorem State.memRead8_error {s : State} {a : Nat} (h : s.cfg.size < a + 1) :
    s.memRead8 a = .error (.outOfBounds a 1) := by
  simp only [State.memRead8]; rw [if_neg (by omega)]

theorem State.memRead16_ok {s : State} {a : Nat} (h : a + 2 ≤ s.cfg.size) :
    s.memRead16 a = .ok (Word.ofBytes (s.mem.read a) (s.mem.read (a + 1))) := by
  simp [State.memRead16, h]

theorem State.memRead16_error {s : State} {a : Nat} (h : s.cfg.size < a + 2) :
    s.memRead16 a = .error (.outOfBounds a 2) := by
  simp only [State.memRead16]; rw [if_neg (by omega)]

/-- The memory a word write leaves. -/
def Memory.writeWord (m : Memory) (a : Nat) (v : Word) : Memory := (m.write a (Word.hi v)).write (a + 1) (Word.lo v)

theorem Memory.read_writeWord (m : Memory) (a x : Nat) (v : Word) :
    (m.writeWord a v).read x = if x = a then Word.hi v else if x = a + 1 then Word.lo v else m.read x := by
  simp only [Memory.writeWord, Memory.read_write]
  split
  · rw [if_neg (by omega)]
  · rfl

theorem Memory.wf_writeWord {m : Memory} (h : m.wf) (a : Nat) (v : Word) : (m.writeWord a v).wf :=
  Memory.wf_write (Memory.wf_write h _ _) _ _

theorem Memory.below_writeWord {m : Memory} {n : Nat} (h : m.below n) {a : Nat} (ha : a + 2 ≤ n) (v : Word) :
    (m.writeWord a v).below n :=
  Memory.below_write (Memory.below_write h (by omega) _) (by omega) _

theorem State.memWrite16_ok {s : State} {a : Nat} (v : Word) (h : a + 2 ≤ s.cfg.size) :
    s.memWrite16 a v = .ok (s.setMem (s.mem.writeWord a v)) := by
  simp [State.memWrite16, Memory.writeWord, h]

theorem State.memWrite16_error {s : State} {a : Nat} (v : Word) (h : s.cfg.size < a + 2) :
    s.memWrite16 a v = .error (.outOfBounds a 2) := by
  simp only [State.memWrite16]; rw [if_neg (by omega)]

/-! ### commit -/

@[simp] theorem State.commit_ok (s t : State) : s.commit (.ok t) = .next t := rfl
@[simp] theorem State.commit_error (s : State) (e : StepError) : s.commit (.error e) = .next (s.raise e) := rfl

/-! ### Push and Pop -/

/-- What a push in bounds leaves (40_cycle_and_primitives R106). -/
def State.pushed (s : State) (v : Word) : State :=
  ((s.setMem (s.mem.writeWord (s.getReg .sp).toNat v)).setReg .sp (diff16 (s.getReg .sp) 2)).setSfs (sum16 s.sfs 2)

theorem State.push_ok {s : State} (v : Word) (h : (s.getReg .sp).toNat + 2 ≤ s.cfg.size) :
    s.push v = .ok (s.pushed v) := by
  simp [State.push, State.memWrite16_ok v h, State.pushed]

theorem State.push_error {s : State} (v : Word) (h : s.cfg.size < (s.getReg .sp).toNat + 2) :
    s.push v = .error (.outOfBounds (s.getReg .sp).toNat 2) := by
  simp [State.push, State.memWrite16_error v h]

/-- Everything a push can do. -/
theorem State.push_cases (s : State) (v : Word) :
    ((s.getReg .sp).toNat + 2 ≤ s.cfg.size ∧ s.push v = .ok (s.pushed v)) ∨
      (s.cfg.size < (s.getReg .sp).toNat + 2 ∧ s.push v = .error (.outOfBounds (s.getReg .sp).toNat 2)) := by
  rcases Nat.lt_or_ge s.cfg.size ((s.getReg .sp).toNat + 2) with h | h
  · exact .inr ⟨h, State.push_error v h⟩
  · exact .inl ⟨h, State.push_ok v h⟩

@[simp] theorem State.pushed_cfg (s : State) (v : Word) : (s.pushed v).cfg = s.cfg := by simp [State.pushed]
@[simp] theorem State.pushed_run (s : State) (v : Word) : (s.pushed v).run = s.run := by simp [State.pushed]
@[simp] theorem State.pushed_sfs (s : State) (v : Word) : (s.pushed v).sfs = sum16 s.sfs 2 := by simp [State.pushed]
@[simp] theorem State.pushed_faultCode (s : State) (v : Word) : (s.pushed v).faultCode = s.faultCode := by simp [State.pushed]
@[simp] theorem State.pushed_faultAddr (s : State) (v : Word) : (s.pushed v).faultAddr = s.faultAddr := by simp [State.pushed]
@[simp] theorem State.pushed_faultWidth (s : State) (v : Word) : (s.pushed v).faultWidth = s.faultWidth := by simp [State.pushed]
@[simp] theorem State.pushed_faultOpcode (s : State) (v : Word) : (s.pushed v).faultOpcode = s.faultOpcode := by simp [State.pushed]
@[simp] theorem State.pushed_freeDraws (s : State) (v : Word) : (s.pushed v).freeDraws = s.freeDraws := by simp [State.pushed]
@[simp] theorem State.pushed_mem (s : State) (v : Word) :
    (s.pushed v).mem = s.mem.writeWord (s.getReg .sp).toNat v := by simp [State.pushed]
theorem State.getReg_pushed (s : State) (v : Word) (q : Reg) :
    (s.pushed v).getReg q = if q = .sp then diff16 (s.getReg .sp) 2 else s.getReg q := by
  simp [State.pushed, State.getReg_setReg]

/-- What a pop in bounds leaves, beside the word (40_cycle_and_primitives R107). -/
def State.popped (s : State) : State :=
  (s.setReg .sp (BitVec.ofNat 16 ((s.getReg .sp).toNat + 2))).setSfs (diff16 s.sfs 2)

/-- The word a pop in bounds yields. -/
def State.topWord (s : State) : Word :=
  Word.ofBytes (s.mem.read ((s.getReg .sp).toNat + 2)) (s.mem.read ((s.getReg .sp).toNat + 3))

theorem State.pop_ok {s : State} (h : (s.getReg .sp).toNat + 4 ≤ s.cfg.size) :
    s.pop = .ok (s.topWord, s.popped) := by
  simp only [State.pop, State.memRead16_ok (show (s.getReg .sp).toNat + 2 + 2 ≤ s.cfg.size from h)]
  rfl

theorem State.pop_error {s : State} (h : s.cfg.size < (s.getReg .sp).toNat + 4) :
    s.pop = .error (.outOfBounds ((s.getReg .sp).toNat + 2) 2) := by
  simp only [State.pop, State.memRead16_error (show s.cfg.size < (s.getReg .sp).toNat + 2 + 2 from h)]

/-- Everything a pop can do. -/
theorem State.pop_cases (s : State) :
    ((s.getReg .sp).toNat + 4 ≤ s.cfg.size ∧ s.pop = .ok (s.topWord, s.popped)) ∨
      (s.cfg.size < (s.getReg .sp).toNat + 4 ∧ s.pop = .error (.outOfBounds ((s.getReg .sp).toNat + 2) 2)) := by
  rcases Nat.lt_or_ge s.cfg.size ((s.getReg .sp).toNat + 4) with h | h
  · exact .inr ⟨h, State.pop_error h⟩
  · exact .inl ⟨h, State.pop_ok h⟩

@[simp] theorem State.popped_cfg (s : State) : s.popped.cfg = s.cfg := by simp [State.popped]
@[simp] theorem State.popped_run (s : State) : s.popped.run = s.run := by simp [State.popped]
@[simp] theorem State.popped_sfs (s : State) : s.popped.sfs = diff16 s.sfs 2 := by simp [State.popped]
@[simp] theorem State.popped_faultCode (s : State) : s.popped.faultCode = s.faultCode := by simp [State.popped]
@[simp] theorem State.popped_faultAddr (s : State) : s.popped.faultAddr = s.faultAddr := by simp [State.popped]
@[simp] theorem State.popped_faultWidth (s : State) : s.popped.faultWidth = s.faultWidth := by simp [State.popped]
@[simp] theorem State.popped_faultOpcode (s : State) : s.popped.faultOpcode = s.faultOpcode := by simp [State.popped]
@[simp] theorem State.popped_freeDraws (s : State) : s.popped.freeDraws = s.freeDraws := by simp [State.popped]
@[simp] theorem State.popped_mem (s : State) : s.popped.mem = s.mem := by simp [State.popped]
theorem State.getReg_popped (s : State) (q : Reg) :
    s.popped.getReg q = if q = .sp then BitVec.ofNat 16 ((s.getReg .sp).toNat + 2) else s.getReg q := by
  simp [State.popped, State.getReg_setReg]

/-! ### PushState -/

/-- A list of pushes is a push and then the rest. -/
theorem State.pushAll_cons (s : State) (v : Word) (vs : List Word) :
    s.pushAll (v :: vs) = match s.push v with
      | .ok t => t.pushAll vs
      | .error e => .error e := rfl

/-- A relation every push keeps is kept by a list of pushes. -/
theorem State.pushAll_keeps {R : State → State → Prop} (refl : ∀ s, R s s)
    (step : ∀ s t v, (s.getReg .sp).toNat + 2 ≤ s.cfg.size → R (s.pushed v) t → R s t) {s t : State} {vs : List Word}
    (h : s.pushAll vs = .ok t) : R s t := by
  induction vs generalizing s with
  | nil => cases h; exact refl _
  | cons v vs ih =>
    rw [State.pushAll_cons] at h
    rcases s.push_cases v with ⟨hb, e⟩ | ⟨_, e⟩ <;> rw [e] at h
    · exact step s t v hb (ih h)
    · cases h

/-- What a list of pushes keeps. -/
theorem State.pushAll_frame {s t : State} {vs : List Word} (h : s.pushAll vs = .ok t) :
    t.cfg = s.cfg ∧ t.run = s.run ∧ t.faultCode = s.faultCode ∧ t.faultAddr = s.faultAddr ∧
      t.faultWidth = s.faultWidth ∧ t.faultOpcode = s.faultOpcode ∧ t.freeDraws = s.freeDraws ∧
      ∀ q, q ≠ .sp → t.getReg q = s.getReg q := by
  refine State.pushAll_keeps (R := fun s t => t.cfg = s.cfg ∧ t.run = s.run ∧ t.faultCode = s.faultCode ∧
    t.faultAddr = s.faultAddr ∧ t.faultWidth = s.faultWidth ∧ t.faultOpcode = s.faultOpcode ∧
    t.freeDraws = s.freeDraws ∧ ∀ q, q ≠ .sp → t.getReg q = s.getReg q) (fun s => by simp) ?_ h
  intro s t v _ ⟨h1, h2, h3, h4, h5, h6, h7, h8⟩
  simp only [State.pushed_cfg, State.pushed_run, State.pushed_faultCode, State.pushed_faultAddr,
    State.pushed_faultWidth, State.pushed_faultOpcode, State.pushed_freeDraws] at *
  refine ⟨h1, h2, h3, h4, h5, h6, h7, fun q hq => ?_⟩
  rw [h8 q hq, State.getReg_pushed, if_neg hq]

/-- A property of memory that every word written inside memory keeps is kept by a list of pushes. -/
theorem State.pushAll_mem {P : Memory → Prop} {n : Nat} (step : ∀ m a v, a + 2 ≤ n → P m → P (Memory.writeWord m a v))
    {s t : State} {vs : List Word} (hn : s.cfg.size = n) (h : s.pushAll vs = .ok t) (hs : P s.mem) : P t.mem := by
  refine State.pushAll_keeps (R := fun s t => s.cfg.size = n → P s.mem → P t.mem) (fun _ _ h => h) ?_ h hn hs
  intro s t v hb hr hn hs
  exact hr hn (by rw [State.pushed_mem]; exact step _ _ _ (by omega) hs)

/-- A call frame pushed whole: nine words, the frame size, then `fp := sp` and `SFS := 0`
(40_cycle_and_primitives R108). -/
theorem State.pushState_eq_ok {s u : State} :
    s.pushState = .ok u ↔ ∃ t, s.pushAll s.frameWords = .ok t ∧ (t.getReg .sp).toNat + 2 ≤ t.cfg.size ∧
      u = ((t.pushed (sum16 t.sfs 2)).setReg .fp ((t.pushed (sum16 t.sfs 2)).getReg .sp)).setSfs 0 := by
  unfold State.pushState
  cases h : s.pushAll s.frameWords with
  | error e => simp
  | ok t =>
    rcases t.push_cases (sum16 t.sfs 2) with ⟨hb, e⟩ | ⟨hb, e⟩
    · simp only [e]; simp [hb, eq_comm]
    · simp only [e]; simp [Nat.not_le.2 hb]

end Sys2Proof.Machine
end

