-- ==== Sys2Proof/Laws/Cycle.lean ====
section
/-! SUPPORT. What fetching and a step can do, said once. -/

namespace Sys2Proof.Machine

/-! ### The fetch primitives -/

theorem State.fetch8_ok {s : State} {ip : Word} (h : ip.toNat + 1 ≤ s.cfg.size) :
    s.fetch8 ip = .ok (s.mem.read ip.toNat) (sum16 ip 1) := by
  simp [State.fetch8, State.memRead8_ok h]

theorem State.fetch8_fail {s : State} {ip : Word} (h : s.cfg.size < ip.toNat + 1) :
    s.fetch8 ip = .fail (.outOfBounds ip.toNat 1) ip := by
  simp [State.fetch8, State.memRead8_error h]

theorem State.fetch16_ok {s : State} {ip : Word} (h : ip.toNat + 2 ≤ s.cfg.size) :
    s.fetch16 ip = .ok (Word.ofBytes (s.mem.read ip.toNat) (s.mem.read (ip.toNat + 1))) (sum16 ip 2) := by
  simp [State.fetch16, State.memRead16_ok h]

theorem State.fetch16_fail {s : State} {ip : Word} (h : s.cfg.size < ip.toNat + 2) :
    s.fetch16 ip = .fail (.outOfBounds ip.toNat 2) ip := by
  simp [State.fetch16, State.memRead16_error h]

/-- What a fetch of the opcode and a look-up in the dispatch table give (40_cycle_and_primitives R100). -/
theorem State.fetchInstr_eq (s : State) :
    s.fetchInstr = (s.fetch8 (s.getReg .ip)).andThen fun b q =>
      match s.cfg.opc.lookup b with
      | none => .fail (.invalidOpcode b (s.getReg .ip)) q
      | some op => decodeOperands s.fetch8 s.fetch16 op q := rfl

/-! ### The step -/

theorem step_faulted {s : State} (h : s.run = .faulted) : step s = .next s := by simp [step, State.cycle, h]

theorem step_executing {s : State} (h : s.run = .executing) : step s = .refused .stepDuringStep := by
  simp [step, State.cycle, h]

theorem step_fetched {s : State} {i : Instr} {ip : Word} (h : s.run = .idle) (hf : s.fetchInstr = .ok i ip) :
    step s = finishStep (exec i (s.enterStep ip)) := by
  simp [step, State.cycle, h, hf]

theorem step_fetch_failed {s : State} {e : StepError} {ip : Word} (h : s.run = .idle)
    (hf : s.fetchInstr = .fail e ip) : step s = .next ((s.enterStep ip).raise e) := by
  simp [step, State.cycle, h, hf]

/-- Everything a step that answers a next state can have done. -/
theorem step_cases {s t : State} (h : step s = .next t) :
    (s.run = .faulted ∧ t = s) ∨
      (s.run = .idle ∧ ∃ e ip, s.fetchInstr = .fail e ip ∧ t = (s.enterStep ip).raise e) ∨
      (s.run = .idle ∧ ∃ i ip u, s.fetchInstr = .ok i ip ∧ exec i (s.enterStep ip) = .next u ∧ t = u.leaveStep) := by
  cases hr : s.run with
  | faulted => rw [step_faulted hr] at h; cases h; exact .inl ⟨rfl, rfl⟩
  | executing => rw [step_executing hr] at h; cases h
  | idle =>
    cases hf : s.fetchInstr with
    | fail e ip => rw [step_fetch_failed hr hf] at h; cases h; exact .inr (.inl ⟨rfl, e, ip, rfl, rfl⟩)
    | ok i ip =>
      rw [step_fetched hr hf] at h
      cases hx : exec i (s.enterStep ip) with
      | next u => rw [hx] at h; cases h; exact .inr (.inr ⟨rfl, i, ip, u, rfl, hx, rfl⟩)
      | fault r => rw [hx] at h; cases h
      | refused r => rw [hx] at h; cases h

end Sys2Proof.Machine
end

