-- ==== Sys2Proof/Laws/Fetch.lean ====
section
/-! SUPPORT. What each fetch of the instruction at `ip` gives, in the terms of the statements: the operand at byte `k`
when the access fits, the error at `p_k` when it does not. -/

namespace Sys2Proof.Machine

theorem State.byteAddr_zero (s : State) : s.byteAddr 0 = s.getReg .ip := by simp [State.byteAddr]

theorem State.sum16_byteAddr (s : State) (k j : Nat) :
    sum16 (s.byteAddr k) (BitVec.ofNat 16 j) = s.byteAddr (k + j) := by
  apply BitVec.eq_of_toNat_eq
  simp only [sum16_toNat, State.byteAddr, BitVec.toNat_ofNat]
  omega

theorem State.wordValue_eq (s : State) (a : Nat) :
    s.wordValue a = Word.ofBytes (s.mem.read a) (s.mem.read (a + 1)) := by
  apply BitVec.eq_of_toNat_eq
  have := (s.mem.read a).isLt
  have := (s.mem.read (a + 1)).isLt
  rw [Word.ofBytes_toNat, State.wordValue, BitVec.toNat_ofNat]
  omega

theorem State.fetch8_fits (s : State) (k : Nat) (h : s.Fits (s.byteAddr k).toNat 1) :
    s.fetch8 (s.byteAddr k) = .ok (s.mem.read (s.byteAddr k).toNat) (s.byteAddr (k + 1)) := by
  rw [State.fetch8_ok h, show (1 : Word) = BitVec.ofNat 16 1 from rfl, State.sum16_byteAddr]

theorem State.fetch8_not_fits (s : State) (k : Nat) (h : ¬ s.Fits (s.byteAddr k).toNat 1) :
    s.fetch8 (s.byteAddr k) = .fail (.outOfBounds (s.byteAddr k).toNat 1) (s.byteAddr k) :=
  State.fetch8_fail (Nat.not_le.1 h)

theorem State.fetchReg_fits (s : State) (k : Nat) (h : s.Fits (s.byteAddr k).toNat 1) :
    fetchReg s.fetch8 (s.byteAddr k) = .ok (s.operandReg k) (s.byteAddr (k + 1)) := by
  rw [fetchReg, State.fetch8_fits s k h]; rfl

theorem State.fetchReg_not_fits (s : State) (k : Nat) (h : ¬ s.Fits (s.byteAddr k).toNat 1) :
    fetchReg s.fetch8 (s.byteAddr k) = .fail (.outOfBounds (s.byteAddr k).toNat 1) (s.byteAddr k) := by
  rw [fetchReg, State.fetch8_not_fits s k h]; rfl

theorem State.fetch16_fits (s : State) (k : Nat) (h : s.Fits (s.byteAddr k).toNat 2) :
    s.fetch16 (s.byteAddr k) = .ok (s.operandWord k) (s.byteAddr (k + 2)) := by
  rw [State.fetch16_ok h, show (2 : Word) = BitVec.ofNat 16 2 from rfl, State.sum16_byteAddr,
    State.operandWord, State.wordValue_eq]

theorem State.fetch16_not_fits (s : State) (k : Nat) (h : ¬ s.Fits (s.byteAddr k).toNat 2) :
    s.fetch16 (s.byteAddr k) = .fail (.outOfBounds (s.byteAddr k).toNat 2) (s.byteAddr k) :=
  State.fetch16_fail (Nat.not_le.1 h)

/-- At an opcode, what is left to fetch is that instruction's operands. -/
theorem State.fetchInstr_atOpcode {s : State} {op : Op} (hi : s.cfg.opc.Injective) (h : s.AtOpcode op) :
    s.fetchInstr = decodeOperands s.fetch8 s.fetch16 op (s.byteAddr 1) := by
  rw [State.fetchInstr_eq, ← State.byteAddr_zero, State.fetch8_fits s 0 (by rw [State.byteAddr_zero]; exact h.2.1),
    State.byteAddr_zero]
  simp [h.2.2, Opc.lookup_byte hi]

/-! ### The first access that does not fit -/

@[simp] theorem State.firstMisfit_nil (s : State) : s.firstMisfit [] = none := rfl

theorem State.firstMisfit_fits (s : State) {a w : Nat} {l : List (Nat × Nat)} (h : s.Fits a w) :
    s.firstMisfit ((a, w) :: l) = s.firstMisfit l := by
  simp [State.firstMisfit, h]

theorem State.firstMisfit_not_fits (s : State) {a w : Nat} {l : List (Nat × Nat)} (h : ¬ s.Fits a w) :
    s.firstMisfit ((a, w) :: l) = some (a, w) := by
  simp [State.firstMisfit, h]

theorem State.firstMisfit_append (s : State) (l m : List (Nat × Nat)) :
    s.firstMisfit (l ++ m) = (s.firstMisfit l).or (s.firstMisfit m) := by
  simp [State.firstMisfit, List.find?_append]

@[simp] theorem dataAccesses_enterStep (s : State) (ip : Word) (i : Instr) :
    dataAccesses (s.enterStep ip) i = dataAccesses s i := by
  cases i <;> rfl

end Sys2Proof.Machine
end

