-- ==== Sys2Proof/Laws/Launch.lean ====
section
/-! SUPPORT. The host's register port and the launch: everything each can do, said once. -/

namespace Sys2Proof.Machine

theorem portRegister_index {i : BitVec 4} {r : Reg} (h : i.toNat = r.index) : portRegister i = some r := by
  rw [portRegister, h]; cases r <;> rfl

theorem portRegister_none {i : BitVec 4} (h : 12 ≤ i.toNat) : portRegister i = none := by
  simpa [portRegister, Reg.all] using h

/-- The port's name is a register's index, or none. -/
theorem portRegister_cases (i : BitVec 4) :
    (∃ r : Reg, i.toNat = r.index ∧ portRegister i = some r) ∨ (12 ≤ i.toNat ∧ portRegister i = none) := by
  rcases Nat.lt_or_ge i.toNat 12 with h | h
  · have index_onto : ∀ n, n < 12 → (Reg.all.getD n .ip).index = n := by decide
    exact .inl ⟨_, (index_onto _ h).symm, portRegister_index (index_onto _ h).symm⟩
  · exact .inr ⟨h, portRegister_none h⟩

/-- Everything a list of sets does: the reports in turn, and each register the last value it was set to. -/
theorem Setup.portSets_spec (sets : List (BitVec 4 × Word)) (u : Setup) :
    (u.portSets sets).1.cfg = u.cfg ∧ (u.portSets sets).1.image = u.image ∧
      (u.portSets sets).2 = (sets.map fun p => if 12 ≤ p.1.toNat then some .unknownRegister else none) ∧
      ∀ r : Reg, (u.portSets sets).1.regs.get r = match (sets.filter fun p => p.1.toNat = r.index).getLast? with
        | some p => p.2
        | none => u.regs.get r := by
  induction sets generalizing u with
  | nil => exact ⟨rfl, rfl, rfl, fun _ => rfl⟩
  | cons p ps ih =>
    rcases portRegister_cases p.1 with ⟨q, hi, hq⟩ | ⟨hi, hn⟩
    · have hlt : ¬ 12 ≤ p.1.toNat := by have := Reg.index_lt q; omega
      have e : u.portSets (p :: ps) = ((Setup.portSets { u with regs := u.regs.set q p.2 } ps).1,
          none :: (Setup.portSets { u with regs := u.regs.set q p.2 } ps).2) := by
        simp [Setup.portSets, Setup.portSet, hq]
      obtain ⟨hcfg, himage, hreports, hregs⟩ := ih { u with regs := u.regs.set q p.2 }
      rw [e]
      refine ⟨hcfg, himage, by simp [hreports, hlt], fun r => ?_⟩
      rw [hregs r]
      by_cases hr : q = r
      · subst hr
        rw [List.filter_cons_of_pos (by simpa using hi), List.getLast?_cons]
        cases (ps.filter fun p => p.1.toNat = q.index).getLast? <;> simp [RegFile.get_set]
      · have hne : ¬ p.1.toNat = r.index := fun h => hr (Reg.index_inj (hi.symm.trans h))
        rw [List.filter_cons_of_neg (by simpa using hne)]
        simp only [RegFile.get_set, if_neg (Ne.symm hr)]
    · have e : u.portSets (p :: ps) = ((u.portSets ps).1, some .unknownRegister :: (u.portSets ps).2) := by
        simp [Setup.portSets, Setup.portSet, hn]
      obtain ⟨hcfg, himage, hreports, hregs⟩ := ih u
      rw [e]
      refine ⟨hcfg, himage, by simp [hreports, hi], fun r => ?_⟩
      have hne : ¬ p.1.toNat = r.index := by have := Reg.index_lt r; omega
      rw [List.filter_cons_of_neg (by simpa using hne)]
      exact hregs r

/-- When a launch answers a core, and which. -/
theorem launch_eq_next {c : Config} {image : List Byte} {sets : List (BitVec 4 × Word)} {l : Launched} :
    launch c image sets = .next l ↔ (c.wf ∧ c.fits image) ∧
      l = { core := (Setup.portSets { cfg := c, image := image, regs := RegFile.reset c.size } sets).1.start,
            reports := (Setup.portSets { cfg := c, image := image, regs := RegFile.reset c.size } sets).2 } := by
  unfold launch prepare
  by_cases h1 : c.wf
  · by_cases h2 : c.fits image
    · rw [if_pos h1, if_pos h2]
      exact ⟨fun h => by cases h; exact ⟨⟨h1, h2⟩, rfl⟩, fun h => by rw [h.2]⟩
    · rw [if_pos h1, if_neg h2]
      exact ⟨fun h => (by cases h), fun h => absurd h.1.2 h2⟩
  · rw [if_neg h1]
    exact ⟨fun h => (by cases h), fun h => absurd h.1.1 h1⟩

end Sys2Proof.Machine
end

