-- ==== Sys2Proof/Laws/PerInstr.lean ====
section
/-! SUPPORT. One lemma per instruction: the form of its encoding (spec 30_encoding R80, R81, R86). -/

namespace Sys2Proof.Laws.Encoding

/-- Under every opcode assignment, the encoding of `i` begins with `i`'s opcode byte and has the length of `i`'s format,
2 to 5 bytes, whatever the operands (R80, R86). -/
def Statement (i : Instr) : Prop :=
  ∀ opc : Opc, (encode opc i).head? = some (opc.byte i.op) ∧ (encode opc i).length = i.length ∧
    2 ≤ i.length ∧ i.length ≤ 5

/-- Every instruction is 2 to 5 bytes long (R80). -/
theorem length_bounds (i : Instr) : 2 ≤ i.length ∧ i.length ≤ 5 := by
  cases i <;> exact ⟨Nat.le_of_ble_eq_true rfl, Nat.le_of_ble_eq_true rfl⟩

theorem movLitReg (lit : Word) (dst : Reg) : Statement (.movLitReg lit dst) := fun _ => ⟨rfl, rfl, length_bounds _⟩
theorem movRegReg (src dst : Reg) : Statement (.movRegReg src dst) := fun _ => ⟨rfl, rfl, length_bounds _⟩
theorem movRegMem (src : Reg) (addr : Word) : Statement (.movRegMem src addr) := fun _ => ⟨rfl, rfl, length_bounds _⟩
theorem movMemReg (addr : Word) (dst : Reg) : Statement (.movMemReg addr dst) := fun _ => ⟨rfl, rfl, length_bounds _⟩
theorem addRegReg (a b : Reg) : Statement (.addRegReg a b) := fun _ => ⟨rfl, rfl, length_bounds _⟩
theorem jmpNotEq (lit target : Word) : Statement (.jmpNotEq lit target) := fun _ => ⟨rfl, rfl, length_bounds _⟩
theorem pshLit (lit : Word) : Statement (.pshLit lit) := fun _ => ⟨rfl, rfl, length_bounds _⟩
theorem pshReg (src : Reg) : Statement (.pshReg src) := fun _ => ⟨rfl, rfl, length_bounds _⟩
theorem pop (dst : Reg) : Statement (.pop dst) := fun _ => ⟨rfl, rfl, length_bounds _⟩
theorem calLit (target : Word) : Statement (.calLit target) := fun _ => ⟨rfl, rfl, length_bounds _⟩

end Sys2Proof.Laws.Encoding
end

