-- ==== Sys2Proof/Tests/Slice0.lean ====
section
/-! SUPPORT. Tests of the model (expected results from spec/95_test_vectors and from the tables of spec/30_encoding, by hand)
and, for each statement with hypotheses, a witness that meets them. -/

namespace Sys2Proof.Tests

open Sys2Proof Sys2Proof.Machine

/-- A core with `n` bytes of memory, otherwise reset, `bytes` at `p` and `ip` = p. -/
def core (n : Nat) (p : Word) (bytes : List Byte) : State :=
  (State.resetWith { Config.reference with size := n } (Memory.load [] p.toNat bytes)).setReg .ip p

/-- The word `v` stored at `a` beforehand. -/
def withWord (s : State) (a : Nat) (v : Word) : State := s.setMem (Memory.load s.mem a [Word.hi v, Word.lo v])

/-- The state after an outcome, if there is one, has the property. -/
def after {σ : Type} (o : Host.Outcome σ Fault Refusal) (p : σ → Bool) : Bool :=
  match o with
  | .next t => p t
  | .fault _ => false
  | .refused _ => false

/-- The step failed with OutOfBounds(a, w), leaving `ip`. -/
def outOfBoundsAt (t : State) (ip : Word) (a w : Nat) : Bool :=
  t.run == .faulted && t.faultCode == 1 && t.faultAddr.toNat == a && t.faultWidth.toNat == w && t.getReg .ip == ip

/-- The word at `a`. -/
def word (t : State) (a : Nat) : Nat := (t.mem.read a).toNat * 256 + (t.mem.read (a + 1)).toNat

def isOk {ε α : Type} : Except ε α → Bool
  | .ok _ => true
  | .error _ => false

/-- The value of an `Except` has the property. -/
def okWith {ε α : Type} (r : Except ε α) (p : α → Bool) : Bool :=
  match r with
  | .ok a => p a
  | .error _ => false

/-! ### What WellFormed refuses (00_scope R6; 30_encoding R88; 70_reset_and_hazards R201, R204) -/

theorem test_reference_config_wf : Config.reference.wf := by decide
theorem test_size_1_refused : ¬ Config.wf { Config.reference with size := 1 } := by decide
theorem test_size_2_admitted : Config.wf { Config.reference with size := 2 } := by decide
theorem test_size_65537_refused : ¬ Config.wf { Config.reference with size := 65537 } := by decide
theorem test_clashing_opcodes_refused : ¬ Opc.Injective { Opc.reference with pop := 0x18 } := by decide
theorem test_zero_fault_code_refused : ¬ FaultCodes.Distinct { FaultCodes.reference with outOfBounds := 0 } := by decide
theorem test_clashing_fault_codes_refused :
    ¬ FaultCodes.Distinct { FaultCodes.reference with outOfBounds := 3 } := by decide
theorem test_image_of_n_bytes_fits : Config.fits { Config.reference with size := 2 } [0x1A, 0x02] := by decide
theorem test_image_too_long_refused : ¬ Config.fits { Config.reference with size := 2 } [0x1A, 0x02, 0x00] := by decide
theorem test_launch_refuses_bad_config :
    after (launch { Config.reference with size := 1 } [] []) (fun _ => true) = false := by decide
theorem test_launch_refuses_long_image :
    after (launch { Config.reference with size := 2 } [0x1A, 0x02, 0x00] []) (fun _ => true) = false := by decide

/-! ### Decoding: words written out from the formats of 30_encoding R81, R85 -/

theorem test_decode_movLitReg : decode Opc.reference [0x10, 0x51, 0x52, 0x02] = .ok (.movLitReg 0x5152 .r1) [] := by
  decide
theorem test_decode_movRegReg : decode Opc.reference [0x11, 0x02, 0x03] = .ok (.movRegReg .r1 .r2) [] := by decide
theorem test_decode_movRegMem : decode Opc.reference [0x12, 0x09, 0x01, 0xFE] = .ok (.movRegMem .r8 0x01FE) [] := by
  decide
theorem test_decode_movMemReg : decode Opc.reference [0x13, 0x80, 0x01, 0x0B] = .ok (.movMemReg 0x8001 .fp) [] := by
  decide
theorem test_decode_addRegReg : decode Opc.reference [0x14, 0x01, 0x0A] = .ok (.addRegReg .acc .sp) [] := by decide
theorem test_decode_jmpNotEq :
    decode Opc.reference [0x15, 0x01, 0x03, 0x00, 0x40] = .ok (.jmpNotEq 0x0103 0x0040) [] := by decide
theorem test_decode_pshLit : decode Opc.reference [0x17, 0xAB, 0xCD] = .ok (.pshLit 0xABCD) [] := by decide
theorem test_decode_pshReg : decode Opc.reference [0x18, 0x0C] = .ok (.pshReg .ip) [] := by decide
theorem test_decode_pop : decode Opc.reference [0x1A, 0xFF] = .ok (.pop .r2) [] := by decide
theorem test_decode_calLit : decode Opc.reference [0x5E, 0x30, 0x01, 0x99] = .ok (.calLit 0x3001) [0x99] := by decide
theorem test_decode_rejects_zero : decode Opc.reference [0x00, 0x01] = .fail (.invalidOpcode 0x00) [0x01] := by decide
theorem test_decode_rejects_16 : decode Opc.reference [0x16] = .fail (.invalidOpcode 0x16) [] := by decide
theorem test_decode_rejects_truncated : decode Opc.reference [0x10, 0x51] = .fail .truncated [0x51] := by decide
theorem test_decode_rejects_empty : decode Opc.reference [] = .fail .truncated [] := by decide
/-- R84: the canonical register bytes. -/
theorem test_register_bytes :
    Reg.all.map Reg.toByte = [0x00, 0x01, 0x02, 0x03, 0x04, 0x05, 0x06, 0x07, 0x08, 0x09, 0x0A, 0x0B] := by decide

/-! ### One step of each instruction (95_test_vectors §2, the id in each comment) -/

/-- V8: the instruction goes on from FFFF to 0000. -/
theorem test_movLitReg_wraps :
    after (step ((core 65536 0xFFFF [0x10]).setMem (Memory.load (Memory.load [] 0xFFFF [0x10]) 0 [0x12, 0x34, 0x02])))
      (fun t => t.getReg .ip == 0x0003 && t.getReg .r1 == 0x1234 && t.run == .idle) := by decide
/-- V10. -/
theorem test_movLitReg_cut :
    after (step (core 6 3 [0x10, 0x00, 0x01])) (fun t => outOfBoundsAt t 6 6 1 && t.getReg .r1 == 0) := by decide
/-- V12: source `ip` reads the post-fetch value. -/
theorem test_movRegReg_ip :
    after (step (core 65536 0x10 [0x11, 0x00, 0x02])) (fun t => t.getReg .ip == 0x13 && t.getReg .r1 == 0x13) := by
  decide
/-- V15: bytes 14 and 15 alias `r1` and `r2`. -/
theorem test_movRegReg_alias :
    after (step ((core 65536 0 [0x11, 0x0E, 0x0F]).setReg .r1 0xBEEF))
      (fun t => t.getReg .ip == 3 && t.getReg .r2 == 0xBEEF && t.getReg .r1 == 0xBEEF) := by decide
/-- V22: it overwrites its own bytes and completes as fetched. -/
theorem test_movRegMem_self :
    after (step ((core 65536 0 [0x12, 0x02, 0x00, 0x00]).setReg .r1 0xABCD))
      (fun t => t.getReg .ip == 4 && t.mem == [(0, 0xAB), (1, 0xCD)]) := by decide
/-- V19. -/
theorem test_movRegMem_edge :
    after (step ((core 65536 0 [0x12, 0x02, 0xFF, 0xFF]).setReg .r1 0xABCD))
      (fun t => outOfBoundsAt t 4 0xFFFF 2 && t.mem.read 0xFFFF == 0) := by decide
/-- V27: odd address, high byte first. -/
theorem test_movMemReg_odd :
    after (step ((core 65536 0 [0x13, 0x01, 0x01, 0x02]).setMem
        (Memory.load (Memory.load [] 0 [0x13, 0x01, 0x01, 0x02]) 0x100 [0x12, 0x34, 0x56])))
      (fun t => t.getReg .ip == 4 && t.getReg .r1 == 0x3456) := by decide
/-- V26. -/
theorem test_movMemReg_edge :
    after (step ((core 65536 0 [0x13, 0xFF, 0xFF, 0x02]).setReg .r1 0x7777))
      (fun t => outOfBoundsAt t 4 0xFFFF 2 && t.getReg .r1 == 0x7777) := by decide
/-- V30. -/
theorem test_addRegReg_wraps :
    after (step ((((core 65536 0 [0x14, 0x02, 0x03]).setReg .r1 0xFFFF).setReg .r2 1).setReg .acc 0x9999))
      (fun t => t.getReg .ip == 3 && t.getReg .acc == 0 && t.getReg .r1 == 0xFFFF && t.getReg .r2 == 1) := by decide
/-- V33: the old `acc` is an addend. -/
theorem test_addRegReg_acc :
    after (step (((core 65536 0 [0x14, 0x01, 0x02]).setReg .acc 0x10).setReg .r1 0x20))
      (fun t => t.getReg .acc == 0x30) := by decide
/-- V44: all sixteen bits are compared. -/
theorem test_jmpNotEq_taken :
    after (step ((core 65536 0 [0x15, 0x01, 0x03, 0x00, 0x40]).setReg .acc 3)) (fun t => t.getReg .ip == 0x40) := by
  decide
/-- V41. -/
theorem test_jmpNotEq_not_taken :
    after (step ((core 65536 0 [0x15, 0x00, 0x03, 0x00, 0x40]).setReg .acc 3)) (fun t => t.getReg .ip == 5) := by decide
/-- V51: `sp` wraps and the instruction's own bytes are overwritten. -/
theorem test_pshLit_wraps :
    after (step ((core 65536 0 [0x17, 0xAB, 0xCD]).setReg .sp 0))
      (fun t => t.getReg .ip == 3 && t.getReg .sp == 0xFFFE && t.sfs == 2 && word t 0 == 0xABCD) := by decide
/-- V52. -/
theorem test_pshLit_edge :
    after (step ((core 65536 0 [0x17, 0xAB, 0xCD]).setReg .sp 0xFFFF))
      (fun t => outOfBoundsAt t 3 0xFFFF 2 && t.getReg .sp == 0xFFFF && t.sfs == 0) := by decide
/-- V56: the old `sp` is pushed. -/
theorem test_pshReg_sp :
    after (step (core 65536 0 [0x18, 0x0A]))
      (fun t => t.getReg .ip == 2 && t.getReg .sp == 0xFFFC && word t 0xFFFE == 0xFFFE) := by decide
/-- V57: the post-fetch `ip` is pushed. -/
theorem test_pshReg_ip :
    after (step (core 65536 0x30 [0x18, 0x00])) (fun t => t.getReg .ip == 0x32 && word t 0xFFFE == 0x32) := by decide
/-- V63: the popped word is written after the update of `sp`. -/
theorem test_pop_sp :
    after (step (withWord (((core 65536 0 [0x1A, 0x0A]).setReg .sp 0xFFFC).setSfs 2) 0xFFFE 0x8000))
      (fun t => t.getReg .ip == 2 && t.getReg .sp == 0x8000 && t.sfs == 0 && word t 0xFFFE == 0x8000) := by decide
/-- V60: the empty stack; the address does not wrap to 0. -/
theorem test_pop_empty :
    after (step (core 65536 0 [0x1A, 0x02]))
      (fun t => outOfBoundsAt t 2 0x10000 2 && t.getReg .sp == 0xFFFE && t.sfs == 0) := by decide
/-- V69: the tenth push wraps below 0. -/
theorem test_calLit_wraps :
    after (step (((core 65536 0 [0x5E, 0x30, 0x00]).setReg .sp 0x10).setReg .r1 0x1111))
      (fun t => t.getReg .ip == 0x3000 && t.getReg .sp == 0xFFFC && t.getReg .fp == 0xFFFC && t.sfs == 0 &&
        word t 0x10 == 0x1111 && word t 0 == 3 && word t 0xFFFE == 0x14) := by decide
/-- V72: nothing is written when the tenth push fails. -/
theorem test_calLit_atomic :
    after (step (((core 32 0 [0x5E, 0x00, 0x10]).setReg .sp 0x10).setReg .r1 0x1111))
      (fun t => outOfBoundsAt t 3 0xFFFE 2 && word t 0x10 == 0 && t.mem == [(0, 0x5E), (2, 0x10)] &&
        t.getReg .sp == 0x10 && t.getReg .fp == 0x1E && t.sfs == 0) := by decide
/-- V78: an unlisted opcode at FFFF. -/
theorem test_invalid_opcode :
    after (step (core 65536 0xFFFF [0x19]))
      (fun t => t.run == .faulted && t.faultCode == 3 && t.faultOpcode == 0x19 && t.faultAddr == 0xFFFF &&
        t.getReg .ip == 0) := by decide
/-- V74: the opcode fetch fails. -/
theorem test_opcode_fetch : after (step (core 256 0x100 [])) (fun t => outOfBoundsAt t 0x100 0x100 1) := by decide
/-- V80: reset in mid-run. -/
theorem test_reset_core :
    ((core 256 0x100 []).setReg .acc 7).resetCore = core 256 0 [] := by decide

/-! ### Memory primitives and the host's surface (95_test_vectors §2.6, §2.7) -/

/-- V85. -/
theorem test_word_then_bytes :
    okWith ((core 65536 0 []).memWrite16 0x100 0x1234) (fun t => t.mem == [(0x100, 0x12), (0x101, 0x34)]) := by decide
/-- V86. -/
theorem test_bytes_then_word :
    okWith ((core 65536 0 []).memWrite8 0x100 0xAB) (fun t => okWith (t.memWrite8 0x101 0xCD)
      (fun u => okWith (u.memRead16 0x100) (fun v => v == 0xABCD))) := by decide
/-- V87, V88, V89, V90, at the last byte. -/
theorem test_last_byte :
    isOk ((core 6 0 []).memRead8 5) ∧ ¬ isOk ((core 6 0 []).memRead16 5) ∧ ¬ isOk ((core 6 0 []).memRead8 6) ∧
      ¬ isOk ((core 6 0 []).memWrite16 5 0xFFFF) := by decide
/-- V81. -/
theorem test_port_12 : okWith ((core 6 0 []).portGet 12) (fun _ => true) = false := by decide
/-- R188: a set of `sp`, then one of index 12, which is reported and changes nothing. -/
theorem test_launch_sets :
    after (launch { Config.reference with size := 6 } [0x1A, 0x02] [(10, 2), (12, 7)])
      (fun l => l.reports == [none, some .unknownRegister] && l.core == (core 6 0 [0x1A, 0x02]).setReg .sp 2) := by
  decide
/-- R32, R214: RUN and the latch after V78. -/
theorem test_read_latch :
    after (step (core 65536 0xFFFF [0x19])) (fun t => okWith t.runState (fun x => x == .faulted) &&
      okWith t.faultLatch (fun l => l.1 == 3 && l.2.1 == 0xFFFF && l.2.2.2 == 0x19)) := by decide
/-- V82, V83. -/
theorem test_memory_window :
    okWith ((core 65536 0 []).dumpMemoryWindow 0xFFFC 8) (fun _ => true) = false ∧
    okWith ((core 65536 0 [0x10, 0x51, 0x51, 0x02, 0x10, 0x42, 0x42, 0x03, 0x18]).dumpMemoryWindow 0)
      (fun bs => bs == [0x10, 0x51, 0x51, 0x02, 0x10, 0x42, 0x42, 0x03]) := by decide
/-- V84. -/
theorem test_dump_registers :
    okWith State.reset.dumpRegisters (fun l => l == [(.ip, 0), (.acc, 0), (.r1, 0), (.r2, 0), (.r3, 0), (.r4, 0),
      (.r5, 0), (.r6, 0), (.r7, 0), (.r8, 0), (.sp, 0xFFFE), (.fp, 0xFFFE)]) := by decide
/-- The host's placing of a table word: CAL_LIT(0x3000) runs as the first instruction after reset. -/
theorem test_withFetchWord :
    after (step (State.reset.withFetchWord 24 0x5E3000)) (fun t => t.getReg .ip == 0x3000) := by decide

/-! ### Witnesses: states and operands that meet each statement's hypotheses, at the boundary of each clause -/

theorem exists_of_after {σ : Type} {o : Host.Outcome σ Fault Refusal} {p : σ → Bool} (h : after o p = true) :
    ∃ t, o = .next t ∧ p t = true := by
  cases o with
  | next t => exact ⟨t, rfl, h⟩
  | fault r => cases h
  | refused r => cases h

/-- `op`'s opcode stands at `ip` of a core that may step, and the opcode values are unique. -/
abbrev Stands (s : State) (op : Op) : Prop := s.cfg.opc.Injective ∧ s.AtOpcode op

theorem witness_EncodeThenDecodeGivesTheInstruction : Opc.reference.Injective := by decide

theorem witness_DecodeReadsEveryFormat : Opc.reference.Injective := by decide

/-- A canonical register byte, and 255, which is not; a literal byte above 11 beside a canonical register byte. -/
theorem witness_DecodeConsumesExactlyTheInstruction :
    decode Opc.reference [0x10, 0x51, 0x52, 0x02] = .ok (.movLitReg 0x5152 .r1) [] ∧
      operandFetches 1 Op.movLitReg.format.operands = [(1, 2), (3, 1)] ∧
    decode Opc.reference [0x1A, 0x0B, 0x99] = .ok (.pop .fp) [0x99] ∧
      decode Opc.reference [0x1A, 0xFF, 0x99] = .ok (.pop .r2) [0x99] := by decide

theorem witness_FetchReadsAtIpAndAdvances :
    let s := core 6 0 []
    (s.cfg.size < (6 : Word).toNat + 1 ∧ (5 : Word).toNat + 1 ≤ s.cfg.size) ∧
      (s.cfg.size < (5 : Word).toNat + 2 ∧ (4 : Word).toNat + 2 ≤ s.cfg.size) := by decide

theorem witness_FetchRegResolvesModuloTwelve :
    (core 6 0 []).cfg.size < (6 : Word).toNat + 1 ∧ (5 : Word).toNat + 1 ≤ (core 6 0 []).cfg.size := by decide

theorem witness_WritesAreBoundsCheckedAndBigEndian :
    let n := (core 6 0 []).cfg.size
    6 + 1 > n ∧ 5 + 1 ≤ n ∧ 5 + 2 > n ∧ 4 + 2 ≤ n := by decide

theorem witness_MixedWidthAccessesAgree : 4 + 2 ≤ (core 6 0 []).cfg.size := by decide

/-- `sp` = N - 1 and `sp` = N - 2. -/
theorem witness_PushWritesAtSpThenMovesDown :
    (((core 6 0 []).setReg .sp 5).getReg .sp).toNat + 2 > 6 ∧ ((core 6 0 []).getReg .sp).toNat + 2 ≤ 6 := by decide

/-- `sp` = N - 3 and `sp` = N - 4, with N at most 65536. -/
theorem witness_PopChecksUnboundedThenMovesUp :
    (((core 6 0 []).setReg .sp 3).getReg .sp).toNat + 2 + 2 > 6 ∧
      (((core 6 0 []).setReg .sp 2).getReg .sp).toNat + 2 + 2 ≤ 6 ∧ (core 6 0 []).cfg.size ≤ 65536 := by decide

/-- The tenth address fails (V72), the first fails (V70), all ten fit (V71). -/
theorem witness_PushStateBuildsTheCallFrame :
    (let s := (core 32 0 []).setReg .sp 0x10;
      s.frameAddr 9 + 2 > s.cfg.size ∧ ∀ j, j < 9 → s.frameAddr j + 2 ≤ s.cfg.size) ∧
    (let s := (core 65536 0 []).setReg .sp 0xFFFF;
      s.frameAddr 0 + 2 > s.cfg.size) ∧
    (let s := core 32 0 [];
      ∀ k, k < 10 → s.frameAddr k + 2 ≤ s.cfg.size) := by decide

/-- Two words fill the stack down to `sp` = 0. -/
theorem witness_PushedWordsPopInReverse :
    let s := core 6 0 []
    (s.getReg .sp).toNat + 2 ≤ s.cfg.size ∧ 2 * [(0x1111 : Word), 0x2222].length ≤ (s.getReg .sp).toNat := by decide

theorem witness_MovRegMemResult : effectiveAddress 4 + 2 ≤ (core 6 0 []).cfg.size := by decide

theorem witness_MovMemRegResult : (4 : Word).toNat + 2 ≤ (core 6 0 []).cfg.size := by decide

/-- Both cases: a literal that differs from `acc`, and one that does not. -/
theorem witness_JmpNotEqResult :
    (0x0103 : Word) ≠ ((core 6 0 []).setReg .acc 3).getReg .acc ∧
      (3 : Word) = ((core 6 0 []).setReg .acc 3).getReg .acc := by decide

theorem witness_PshLitResult : ((core 6 0 []).getReg .sp).toNat + 2 ≤ (core 6 0 []).cfg.size := by decide

theorem witness_PshRegResult : ((core 6 0 []).getReg .sp).toNat + 2 ≤ (core 6 0 []).cfg.size := by decide

/-- `sp` = N - 4, popped into another register and into `sp`. -/
theorem witness_PopResult :
    (((core 6 0 []).setReg .sp 2).getReg .sp).toNat + 4 ≤ (core 6 0 []).cfg.size ∧ Reg.r1 ≠ Reg.sp := by decide

theorem witness_CalLitResult : ∀ k, k < 10 → (core 32 0 []).frameAddr k + 2 ≤ (core 32 0 []).cfg.size := by decide

/-- With SFS = 4: two words pushed since the last frame. -/
theorem witness_SavedFrameSizeReachesThePreviousBase :
    let s := ((core 32 0 []).setReg .sp 0x1A).setSfs 4
    ∀ k, k < 10 → s.frameAddr k + 2 ≤ s.cfg.size := by decide

theorem witness_StoreThenLoadGivesTheStoredWord :
    ∃ s t u : State, (4 : Word).toNat + 2 ≤ s.cfg.size ∧ exec (.movRegMem .r1 4) s = .next t ∧ u.cfg = t.cfg ∧
      u.mem.read 4 = t.mem.read 4 ∧ u.mem.read 5 = t.mem.read 5 ∧ s.getReg .r1 = 0xABCD := by
  obtain ⟨t, h, _⟩ := exists_of_after (o := exec (.movRegMem .r1 4) ((core 6 0 []).setReg .r1 0xABCD))
    (p := fun _ => true) (by decide)
  exact ⟨_, t, t, by decide, h, rfl, rfl, rfl, by decide⟩

/-- `sp` = 2, the lowest that the statement takes, for each kind of push. -/
theorem witness_PushThenPopGivesTheWordBack :
    ∀ push ∈ [Instr.pshReg .r1, Instr.pshLit 0xABCD], ∃ s t u : State,
      (push = .pshLit 0xABCD ∨ ∃ src, push = .pshReg src ∧ s.getReg src = 0xABCD) ∧
      (s.getReg .sp).toNat + 2 ≤ s.cfg.size ∧ 2 ≤ (s.getReg .sp).toNat ∧
      exec push s = .next t ∧ u.cfg = t.cfg ∧ u.getReg .sp = t.getReg .sp ∧ u.sfs = t.sfs ∧
      u.mem.read (s.getReg .sp).toNat = t.mem.read (s.getReg .sp).toNat ∧
      u.mem.read ((s.getReg .sp).toNat + 1) = t.mem.read ((s.getReg .sp).toNat + 1) := by
  intro push hp
  have h1 : after (exec push (((core 6 0 []).setReg .r1 0xABCD).setReg .sp 2)) (fun _ => true) = true := by
    revert push; decide
  have h2 : push = .pshLit 0xABCD ∨
      ∃ src, push = .pshReg src ∧ (((core 6 0 []).setReg .r1 0xABCD).setReg .sp 2).getReg src = 0xABCD := by
    simp only [List.mem_cons, List.not_mem_nil, or_false] at hp
    rcases hp with rfl | rfl
    · exact .inr ⟨.r1, rfl, by decide⟩
    · exact .inl rfl
  obtain ⟨t, h, _⟩ := exists_of_after h1
  exact ⟨_, t, t, h2, by decide, by decide, h, rfl, rfl, rfl, rfl, rfl⟩

theorem witness_StoreIsSeenByTheNextFetch :
    ∃ s t : State, (4 : Word).toNat + 2 ≤ s.cfg.size ∧ exec (.movRegMem .r1 4) s = .next t := by
  obtain ⟨t, h, _⟩ := exists_of_after (o := exec (.movRegMem .r1 4) (core 6 0 [])) (p := fun _ => true) (by decide)
  exact ⟨_, t, by decide, h⟩

/-- Each fetch that fails first, and an instruction that ends at the last byte. -/
theorem witness_StepOfMovLitReg :
    (let s := core 6 4 [0x10, 0x00]; Stands s .movLitReg ∧ ¬ s.Fits (s.byteAddr 1).toNat 2) ∧
    (let s := core 6 3 [0x10, 0x00, 0x01];
      Stands s .movLitReg ∧ s.Fits (s.byteAddr 1).toNat 2 ∧ ¬ s.Fits (s.byteAddr 3).toNat 1) ∧
    (let s := core 6 2 [0x10, 0x00, 0x01, 0x02];
      Stands s .movLitReg ∧ s.Fits (s.byteAddr 1).toNat 2 ∧ s.Fits (s.byteAddr 3).toNat 1 ∧ s.operandReg 3 ≠ .ip) := by
  decide

theorem witness_StepOfMovRegReg :
    (let s := core 6 5 [0x11]; Stands s .movRegReg ∧ ¬ s.Fits (s.byteAddr 1).toNat 1) ∧
    (let s := core 6 4 [0x11, 0x02];
      Stands s .movRegReg ∧ s.Fits (s.byteAddr 1).toNat 1 ∧ ¬ s.Fits (s.byteAddr 2).toNat 1) ∧
    (let s := core 6 3 [0x11, 0x02, 0x03];
      Stands s .movRegReg ∧ s.Fits (s.byteAddr 1).toNat 1 ∧ s.Fits (s.byteAddr 2).toNat 1 ∧ s.operandReg 2 ≠ .ip) := by
  decide

/-- The last: the store's highest legal address, N - 2, is the instruction's own operand. -/
theorem witness_StepOfMovRegMem :
    (let s := core 6 5 [0x12]; Stands s .movRegMem ∧ ¬ s.Fits (s.byteAddr 1).toNat 1) ∧
    (let s := core 6 3 [0x12, 0x02, 0x00];
      Stands s .movRegMem ∧ s.Fits (s.byteAddr 1).toNat 1 ∧ ¬ s.Fits (s.byteAddr 2).toNat 2) ∧
    (let s := core 6 2 [0x12, 0x02, 0x00, 0x05];
      Stands s .movRegMem ∧ s.Fits (s.byteAddr 1).toNat 1 ∧ s.Fits (s.byteAddr 2).toNat 2 ∧
        ¬ s.Fits (s.operandWord 2).toNat 2) ∧
    (let s := core 6 2 [0x12, 0x02, 0x00, 0x04];
      Stands s .movRegMem ∧ s.Fits (s.byteAddr 1).toNat 1 ∧ s.Fits (s.byteAddr 2).toNat 2 ∧
        s.Fits (s.operandWord 2).toNat 2) := by decide

theorem witness_StepOfMovMemReg :
    (let s := core 6 4 [0x13, 0x00]; Stands s .movMemReg ∧ ¬ s.Fits (s.byteAddr 1).toNat 2) ∧
    (let s := core 6 3 [0x13, 0x00, 0x04];
      Stands s .movMemReg ∧ s.Fits (s.byteAddr 1).toNat 2 ∧ ¬ s.Fits (s.byteAddr 3).toNat 1) ∧
    (let s := core 6 2 [0x13, 0x00, 0x05, 0x02];
      Stands s .movMemReg ∧ s.Fits (s.byteAddr 1).toNat 2 ∧ s.Fits (s.byteAddr 3).toNat 1 ∧
        ¬ s.Fits (s.operandWord 1).toNat 2) ∧
    (let s := core 6 2 [0x13, 0x00, 0x04, 0x02];
      Stands s .movMemReg ∧ s.Fits (s.byteAddr 1).toNat 2 ∧ s.Fits (s.byteAddr 3).toNat 1 ∧
        s.Fits (s.operandWord 1).toNat 2 ∧ s.operandReg 3 ≠ .ip) := by decide

theorem witness_StepOfMovMemReg_wordAt : WordAt (core 6 2 [0x13, 0x00, 0x04, 0x02]) 4 0x0402 := by
  constructor <;> decide

theorem witness_StepOfAddRegReg :
    (let s := core 6 5 [0x14]; Stands s .addRegReg ∧ ¬ s.Fits (s.byteAddr 1).toNat 1) ∧
    (let s := core 6 4 [0x14, 0x02];
      Stands s .addRegReg ∧ s.Fits (s.byteAddr 1).toNat 1 ∧ ¬ s.Fits (s.byteAddr 2).toNat 1) ∧
    (let s := core 6 3 [0x14, 0x02, 0x03];
      Stands s .addRegReg ∧ s.Fits (s.byteAddr 1).toNat 1 ∧ s.Fits (s.byteAddr 2).toNat 1) := by decide

/-- The third state jumps to 6, outside memory; the fourth does not jump. -/
theorem witness_StepOfJmpNotEq :
    (let s := core 6 4 [0x15, 0x00]; Stands s .jmpNotEq ∧ ¬ s.Fits (s.byteAddr 1).toNat 2) ∧
    (let s := core 6 2 [0x15, 0x00, 0x03, 0x00];
      Stands s .jmpNotEq ∧ s.Fits (s.byteAddr 1).toNat 2 ∧ ¬ s.Fits (s.byteAddr 3).toNat 2) ∧
    (let s := core 6 1 [0x15, 0x01, 0x00, 0x00, 0x06];
      Stands s .jmpNotEq ∧ s.Fits (s.byteAddr 1).toNat 2 ∧ s.Fits (s.byteAddr 3).toNat 2 ∧
        s.operandWord 1 ≠ s.getReg .acc ∧ ¬ s.Fits (s.operandWord 3).toNat 1) ∧
    (let s := core 6 1 [0x15, 0x00, 0x00, 0x00, 0x06];
      Stands s .jmpNotEq ∧ s.Fits (s.byteAddr 1).toNat 2 ∧ s.Fits (s.byteAddr 3).toNat 2 ∧
        s.operandWord 1 = s.getReg .acc) := by decide

theorem witness_StepOfPshLit :
    (let s := core 6 4 [0x17, 0x00]; Stands s .pshLit ∧ ¬ s.Fits (s.byteAddr 1).toNat 2) ∧
    (let s := (core 6 3 [0x17, 0x00, 0x01]).setReg .sp 5;
      Stands s .pshLit ∧ s.Fits (s.byteAddr 1).toNat 2 ∧ ¬ s.Fits (s.getReg .sp).toNat 2) ∧
    (let s := core 6 3 [0x17, 0x00, 0x01];
      Stands s .pshLit ∧ s.Fits (s.byteAddr 1).toNat 2 ∧ s.Fits (s.getReg .sp).toNat 2) := by decide

theorem witness_StepOfPshReg :
    (let s := core 6 5 [0x18]; Stands s .pshReg ∧ ¬ s.Fits (s.byteAddr 1).toNat 1) ∧
    (let s := (core 6 4 [0x18, 0x02]).setReg .sp 5;
      Stands s .pshReg ∧ s.Fits (s.byteAddr 1).toNat 1 ∧ ¬ s.Fits (s.getReg .sp).toNat 2) ∧
    (let s := core 6 4 [0x18, 0x02];
      Stands s .pshReg ∧ s.Fits (s.byteAddr 1).toNat 1 ∧ s.Fits (s.getReg .sp).toNat 2) := by decide

theorem witness_StepOfPop :
    (let s := core 6 5 [0x1A]; Stands s .pop ∧ ¬ s.Fits (s.byteAddr 1).toNat 1) ∧
    (let s := (core 6 4 [0x1A, 0x02]).setReg .sp 3;
      Stands s .pop ∧ s.Fits (s.byteAddr 1).toNat 1 ∧ ¬ s.Fits ((s.getReg .sp).toNat + 2) 2) ∧
    (let s := (core 6 4 [0x1A, 0x02]).setReg .sp 2;
      Stands s .pop ∧ s.Fits (s.byteAddr 1).toNat 1 ∧ s.Fits ((s.getReg .sp).toNat + 2) 2 ∧
        s.operandReg 1 ≠ .sp ∧ s.operandReg 1 ≠ .ip) := by decide

/-- The operand fetch fails; the tenth push fails; all ten fit. -/
theorem witness_StepOfCalLit :
    (let s := core 6 4 [0x5E, 0x00]; Stands s .calLit ∧ ¬ s.Fits (s.byteAddr 1).toNat 2) ∧
    (let s := (core 32 0 [0x5E, 0x00, 0x10]).setReg .sp 0x10;
      Stands s .calLit ∧ s.Fits (s.byteAddr 1).toNat 2 ∧ ¬ s.Fits (s.frameAddr 9) 2 ∧
        ∀ j, j < 9 → s.Fits (s.frameAddr j) 2) ∧
    (let s := core 32 0 [0x5E, 0x00, 0x10];
      Stands s .calLit ∧ s.Fits (s.byteAddr 1).toNat 2 ∧ ∀ k, k < 10 → s.Fits (s.frameAddr k) 2) := by decide

/-- POP at the last two bytes of a memory of 6. -/
theorem witness_StepRunsTheDecodedInstruction :
    let s := core 6 4 [0x1A, 0x02]
    s.cfg.wf ∧ s.run = .idle ∧ (Instr.pop .r1).wf = true ∧
      decode s.cfg.opc (s.bytesAtIp (Instr.pop .r1).length) = .ok (.pop .r1) [] ∧
      ∀ f ∈ (Instr.pop .r1).op.fetches, s.Fits (s.byteAddr f.1).toNat f.2 := by decide

/-- V8: the bytes go on from FFFF to 0000. -/
theorem witness_StepRunsTheDecodedInstruction_wraps :
    let s := (core 65536 0xFFFF []).setMem (Memory.load (Memory.load [] 0xFFFF [0x10]) 0 [0x12, 0x34, 0x02])
    s.cfg.wf ∧ s.run = .idle ∧
      decode s.cfg.opc (s.bytesAtIp (Instr.movLitReg 0x1234 .r1).length) = .ok (.movLitReg 0x1234 .r1) [] ∧
      ∀ f ∈ (Instr.movLitReg 0x1234 .r1).op.fetches, s.Fits (s.byteAddr f.1).toNat f.2 := by decide

theorem witness_EveryStepRequestCompletes :
    (core 6 0 []).run ≠ .executing ∧ ((core 6 0 []).setRun .faulted).run ≠ .executing := by decide

theorem witness_FaultedStaysAsItIs : ((core 6 0 []).raise (.outOfBounds 6 1)).run = .faulted := by decide

/-- V78: the opcode byte is the last of a memory of 65536. -/
theorem witness_UnlistedOpcodeFailsTheStep :
    let s := core 65536 0xFFFF [0x19]
    s.run = .idle ∧ (s.getReg .ip).toNat + 1 ≤ s.cfg.size ∧
      ∀ op ∈ Op.all, s.cfg.opc.byte op ≠ s.mem.read (s.getReg .ip).toNat := by decide

/-- The opcode fetch; the first operand; the second. -/
theorem witness_FirstFetchThatDoesNotFitFailsTheStep :
    (let s := core 6 6 []; s.run = .idle ∧ ¬ s.Fits (s.getReg .ip).toNat 1) ∧
    (let s := core 6 5 [0x13];
      s.run = .idle ∧ s.Fits (s.getReg .ip).toNat 1 ∧
        s.cfg.opc.lookup (s.mem.read (s.getReg .ip).toNat) = some .movMemReg ∧
        Op.movMemReg.fetches = (0, 1) :: [] ++ (1, 2) :: [(3, 1)] ∧ ¬ s.Fits (s.byteAddr 1).toNat 2) ∧
    (let s := core 6 3 [0x13, 0x00, 0x04];
      s.run = .idle ∧ s.Fits (s.getReg .ip).toNat 1 ∧
        s.cfg.opc.lookup (s.mem.read (s.getReg .ip).toNat) = some .movMemReg ∧
        Op.movMemReg.fetches = (0, 1) :: [(1, 2)] ++ (3, 1) :: [] ∧
        (∀ f ∈ [(1, 2)], s.Fits (s.byteAddr f.1).toNat f.2) ∧ ¬ s.Fits (s.byteAddr 3).toNat 1) := by decide

/-- One step that fails with OutOfBounds, one with InvalidOpcode. -/
theorem witness_FailedStepChangesOnlyIp :
    (∃ s t : State, s.run = .idle ∧ step s = .next t ∧ t.run = .faulted ∧ t.faultCode = 1) ∧
      ∃ s t : State, s.run = .idle ∧ step s = .next t ∧ t.run = .faulted ∧ t.faultCode = 3 := by
  obtain ⟨t, h, p⟩ := exists_of_after (o := step (core 6 6 [])) (p := fun t => t.run = .faulted ∧ t.faultCode = 1)
    (by decide)
  obtain ⟨u, g, q⟩ := exists_of_after (o := step (core 6 0 [])) (p := fun t => t.run = .faulted ∧ t.faultCode = 3)
    (by decide)
  exact ⟨⟨_, t, by decide, h, of_decide_eq_true p⟩, ⟨_, u, by decide, g, of_decide_eq_true q⟩⟩

/-- Both cases: a call whose ten addresses fit, and one whose tenth does not (V72). -/
theorem witness_EffectPhaseIsAllOrNothing :
    (core 32 0 []).firstMisfit (dataAccesses (core 32 0 []) (.calLit 0x10)) = none ∧
      ((core 32 0 []).setReg .sp 0x10).firstMisfit (dataAccesses ((core 32 0 []).setReg .sp 0x10) (.calLit 0x10)) =
        some (0xFFFE, 2) := by decide

/-- A call, which writes the most, and a jump that writes neither SFS nor memory. -/
theorem witness_InstructionsWriteOnlyWhatTheyMay :
    (∃ t, exec (.calLit 0x10) (core 32 0 []) = .next t) ∧ (∃ t, exec (.jmpNotEq 1 2) (core 32 0 []) = .next t) ∧
      Reg.r1 ∉ (Instr.calLit 0x10).writes ∧ (Instr.jmpNotEq 1 2).op.writesSfs = false ∧
      (Instr.jmpNotEq 1 2).op.writesMemory = false := by
  obtain ⟨t, h, _⟩ := exists_of_after (o := exec (.calLit 0x10) (core 32 0 [])) (p := fun _ => true) (by decide)
  obtain ⟨u, g, _⟩ := exists_of_after (o := exec (.jmpNotEq 1 2) (core 32 0 [])) (p := fun _ => true) (by decide)
  exact ⟨⟨t, h⟩, ⟨u, g⟩, by decide, by decide, by decide⟩

/-- A push, which changes SFS. -/
theorem witness_SfsIsHiddenFromAllButCalls :
    ∃ s t : State, (∀ target ip, s.fetchInstr ≠ .ok (.calLit target) ip) ∧ step s = .next t ∧ t.sfs ≠ s.sfs := by
  obtain ⟨t, h, p⟩ := exists_of_after (o := step (core 6 3 [0x17, 0x00, 0x01])) (p := fun t => t.sfs ≠ 0) (by decide)
  refine ⟨_, t, ?_, h, of_decide_eq_true p⟩
  rw [show (core 6 3 [0x17, 0x00, 0x01]).fetchInstr = .ok (.pshLit 1) 6 by decide]
  intro _ _ e
  cases e

/-- An Idle state with a program in memory, and a Faulted one. -/
theorem witness_StepKeepsTheInvariant :
    (∃ s t : State, s.Inv ∧ s.run = .idle ∧ step s = .next t) ∧
      ∃ s t : State, s.Inv ∧ s.run = .faulted ∧ step s = .next t := by
  obtain ⟨t, h, _⟩ := exists_of_after (o := step (core 6 3 [0x17, 0x00, 0x01])) (p := fun _ => true) (by decide)
  refine ⟨⟨core 6 3 [0x17, 0x00, 0x01], t, ⟨by decide, by decide, by decide, rfl⟩, by decide, h⟩, ?_⟩
  exact ⟨(core 6 6 []).raise (.outOfBounds 6 1), _,
    ⟨by decide, by decide, by decide, .inl ⟨6, 1, ⟨rfl, by decide, by decide⟩, by decide⟩⟩, rfl, rfl⟩

/-- A launch with a register set, and a state that meets the invariant. -/
theorem witness_LaunchAndResetMeetTheInvariant :
    (∃ l, launch { Config.reference with size := 6 } [0x1A, 0x02] [(10, 4)] = .next l) ∧ (core 6 3 [0x17]).Inv := by
  obtain ⟨l, h, _⟩ := exists_of_after (o := launch { Config.reference with size := 6 } [0x1A, 0x02] [(10, 4)])
    (p := fun _ => true) (by decide)
  exact ⟨⟨l, h⟩, by decide, by decide, by decide, rfl⟩

/-- The clause on Faulted; the rest has no hypothesis. -/
theorem witness_ResetIsTheWayOutOfFaulted : ((core 6 0 []).raise (.invalidOpcode 0 0)).run = .faulted := by decide

/-- The image fills memory, and a register is set twice. -/
theorem witness_LaunchPlacesTheImageAndResetsTheCore :
    (∃ l, launch { Config.reference with size := 2 } [0x1A, 0x02] [(11, 1), (15, 3), (11, 2)] = .next l) ∧
      Config.wf { Config.reference with size := 2 } ∧ [(0x1A : Byte), 0x02].length ≤ 2 := by
  obtain ⟨l, h, _⟩ := exists_of_after
    (o := launch { Config.reference with size := 2 } [0x1A, 0x02] [(11, 1), (15, 3), (11, 2)])
    (p := fun _ => true) (by decide)
  exact ⟨⟨l, h⟩, by decide, by decide⟩

theorem witness_DumpRegistersListsTheTwelveInOrder : (core 6 0 []).run ≠ .executing := by decide

/-- The window's last byte is the memory's last, and one past it. -/
theorem witness_DumpMemoryWindowReadsOrReports :
    (core 8 0 []).run ≠ .executing ∧ 0 + 8 ≤ (core 8 0 []).cfg.size ∧ (core 8 0 []).cfg.size < 1 + 8 := by decide

/-- The last register's index, and the first that is none, read and set. -/
theorem witness_RegisterPortKnowsTwelveNames :
    (core 6 0 []).run ≠ .executing ∧ (11 : BitVec 4).toNat = Reg.fp.index ∧ 12 ≤ (12 : BitVec 4).toNat ∧
      (∃ l, launch { Config.reference with size := 6 } [] [] = .next l) ∧
      (∃ m, launch { Config.reference with size := 6 } [] [(11, 7)] = .next m) ∧
      ∃ m, launch { Config.reference with size := 6 } [] [(12, 7)] = .next m := by
  refine ⟨by decide, by decide, by decide, ?_, ?_, ?_⟩
  · exact (exists_of_after (p := fun _ => true) (by decide)).imp fun _ h => h.1
  · exact (exists_of_after (p := fun _ => true) (by decide)).imp fun _ h => h.1
  · exact (exists_of_after (p := fun _ => true) (by decide)).imp fun _ h => h.1

/-- The first access that does not fit is an operand fetch, or the data access; all fit and the byte is an opcode, or is
none. -/
theorem witness_FirstFailingCheckDecidesTheStep :
    (let s := core 6 3 [0x13, 0x00, 0x04]; s.run = .idle ∧ s.firstMisfit s.accesses = some (6, 1)) ∧
    (let s := core 6 2 [0x13, 0x00, 0x05, 0x02]; s.firstMisfit s.accesses = some (5, 2)) ∧
    (let s := core 6 2 [0x13, 0x00, 0x04, 0x02];
      s.firstMisfit s.accesses = none ∧ s.cfg.opc.lookup (s.mem.read (s.getReg .ip).toNat) = some .movMemReg) ∧
    (let s := core 6 5 [0x19];
      s.firstMisfit s.accesses = none ∧ s.cfg.opc.lookup (s.mem.read (s.getReg .ip).toNat) = none) := by decide

/-- Idle, where nothing is latched, and Faulted with each kind of error latched. -/
theorem witness_HostReadsRunAndTheLatch :
    (core 6 0 []).run ≠ .executing ∧
      (let s := (core 6 0 []).raise (.outOfBounds 6 1); s.run ≠ .executing ∧ s.Latched (.outOfBounds 6 1)) ∧
      (let s := (core 6 0 []).raise (.invalidOpcode 0x19 5);
        s.run ≠ .executing ∧ s.Latched (.invalidOpcode 0x19 5)) :=
  ⟨by decide, ⟨by decide, rfl, by decide, by decide⟩, by decide, rfl, rfl, by decide⟩

end Sys2Proof.Tests
end

