-- ==== Sys2Proof/Proofs/Memory.lean ====
section
/-! The memory primitives as 20_memory §4 states them: what a byte write answers, what a word write leaves at its two
bytes and elsewhere, and the two statements about reads and writes. -/

namespace Sys2Proof.Machine

/-! ### Replacing the memory -/

/-- Putting the old memory back restores the state: nothing else had changed. -/
@[simp] theorem State.setMem_setMem_mem (s : State) (m : Memory) : (s.setMem m).setMem s.mem = s := rfl

/-! ### Reads -/

theorem State.memRead16_eq_wordValue {s : State} {a : Nat} (h : a + 2 ≤ s.cfg.size) :
    s.memRead16 a = .ok (s.wordValue a) := by
  rw [State.memRead16_ok h, State.wordValue_eq]

/-- Settles O7: each read by the two cases of its bounds check; in bounds the bytes join big-endian (`wordValue`). -/
theorem readsAreBoundsCheckedAndBigEndian : Obligations.ReadsAreBoundsCheckedAndBigEndian := by
  intro s a
  constructor
  · split
    case isTrue out => exact State.memRead8_error out
    case isFalse fits => exact State.memRead8_ok (Nat.not_lt.1 fits)
  · split
    case isTrue out => exact State.memRead16_error out
    case isFalse fits => exact State.memRead16_eq_wordValue (Nat.not_lt.1 fits)

/-! ### Writes -/

theorem State.memWrite8_ok {s : State} {a : Nat} (b : Byte) (h : a + 1 ≤ s.cfg.size) :
    s.memWrite8 a b = .ok (s.setMem (s.mem.write a b)) :=
  if_pos h

theorem State.memWrite8_error {s : State} {a : Nat} (b : Byte) (h : s.cfg.size < a + 1) :
    s.memWrite8 a b = .error (.outOfBounds a 1) :=
  if_neg (Nat.not_le.2 h)

/-- A state whose memory is `m` after a word write of `v` at `a` holds `v` there, high byte first. -/
theorem wordAt_of_mem_eq_writeWord {t : State} {m : Memory} {a : Nat} {v : Word} (h : t.mem = m.writeWord a v) :
    WordAt t a v := by
  constructor
  · rw [h, Memory.read_writeWord, if_pos rfl, Word.hi_toNat]
  · rw [h, Memory.read_writeWord, if_neg (Nat.succ_ne_self a), if_pos rfl, Word.lo_toNat]

/-- A state whose memory is that of `s` after a word write at `a` keeps every byte of `s` but those two. -/
theorem memKeptButWord_of_mem_eq_writeWord {s t : State} {a : Nat} {v : Word} (h : t.mem = s.mem.writeWord a v) :
    MemKeptButWord a s t := by
  intro x hhigh hlow
  rw [h, Memory.read_writeWord, if_neg hhigh, if_neg hlow]

/-- Settles O8: out of bounds each write answers its error; in bounds it answers `s` with only the memory replaced, read
back by the laws of `Memory.write` and `Memory.writeWord`. -/
theorem writesAreBoundsCheckedAndBigEndian : Obligations.WritesAreBoundsCheckedAndBigEndian := by
  intro s a b v
  refine ⟨State.memWrite8_error b, fun fits => ?_, State.memWrite16_error v, fun fits => ?_⟩
  · exact ⟨s.setMem (s.mem.write a b), State.memWrite8_ok b fits, Memory.read_write_same s.mem a b,
      fun _ => Memory.read_write_other s.mem b, s.setMem_setMem_mem _⟩
  · exact ⟨s.setMem (s.mem.writeWord a v), State.memWrite16_ok v fits, wordAt_of_mem_eq_writeWord rfl,
      memKeptButWord_of_mem_eq_writeWord rfl, s.setMem_setMem_mem _⟩

end Sys2Proof.Machine
end

section
/-! The fetch primitives and the push as 40_cycle_and_primitives §2 and §4 state them: what `ip` becomes, which register
a byte names, and what a push leaves at the old `sp` and elsewhere. -/

namespace Sys2Proof

/-- A register byte names index `byte mod 12` (30_encoding R83): the table of registers is in index order. -/
theorem Reg.index_ofByte (b : Byte) : (Reg.ofByte b).index = b.toNat % 12 := by
  have inOrder : ∀ k < 12, (Reg.all.getD k .ip).index = k := by decide
  exact inOrder (b.toNat % 12) (Nat.mod_lt _ (by decide))

/-- A register's two bytes lie inside the 24-byte register block (10_state R21). -/
theorem Reg.byteOffset_lt (r : Reg) : r.byteOffset < 24 := by
  have := r.index_lt
  unfold Reg.byteOffset
  omega

namespace Machine

/-! ### Fetches (R102 to R104) -/

theorem sum16_one (ip : Word) : sum16 ip 1 = BitVec.ofNat 16 ((ip.toNat + 1) % 65536) := rfl

theorem sum16_two (ip : Word) : sum16 ip 2 = BitVec.ofNat 16 ((ip.toNat + 2) % 65536) := rfl

/-- Settles O5: each fetch by the two cases of its bounds check; a word fetch joins its bytes big-endian
(`wordValue`). -/
theorem fetchReadsAtIpAndAdvances : Obligations.FetchReadsAtIpAndAdvances := by
  intro s ip
  refine ⟨State.fetch8_fail, fun fits => ?_, State.fetch16_fail, fun fits => ?_⟩
  · rw [State.fetch8_ok fits, sum16_one]
  · rw [State.fetch16_ok fits, sum16_two, State.wordValue_eq]

theorem State.fetchReg_ok {s : State} {ip : Word} (h : ip.toNat + 1 ≤ s.cfg.size) :
    fetchReg s.fetch8 ip = .ok (Reg.ofByte (s.mem.read ip.toNat)) (sum16 ip 1) := by
  rw [fetchReg_eq, State.fetch8_ok h, Fetched.andThen_ok]

theorem State.fetchReg_fail {s : State} {ip : Word} (h : s.cfg.size < ip.toNat + 1) :
    fetchReg s.fetch8 ip = .fail (.outOfBounds ip.toNat 1) ip := by
  rw [fetchReg_eq, State.fetch8_fail h, Fetched.andThen_fail]

/-- Settles O6: a register fetch is the byte fetch, its byte resolved by `Reg.ofByte`, whose index is the byte
mod 12. -/
theorem fetchRegResolvesModuloTwelve : Obligations.FetchRegResolvesModuloTwelve := by
  intro s ip
  refine ⟨State.fetchReg_fail, fun fits => ?_⟩
  have index := Reg.index_ofByte (s.mem.read ip.toNat)
  refine ⟨Reg.ofByte (s.mem.read ip.toNat), ?_, index, ?_, Reg.byteOffset_lt _⟩
  · rw [State.fetchReg_ok fits, sum16_one]
  · rw [Reg.byteOffset, index]

/-! ### Push (R106) -/

theorem State.getReg_sp_pushed (s : State) (v : Word) : (s.pushed v).getReg .sp = s.getReg .sp - 2 := by
  rw [State.getReg_pushed, if_pos rfl, diff16_eq]

/-- A push changes no register but `sp`, no parameter, and neither RUN nor the fault latch. -/
theorem State.keepsBut_pushed (s : State) (v : Word) : KeepsBut [.sp] s (s.pushed v) := by
  have latch : LatchKept s (s.pushed v) := ⟨s.pushed_faultCode v, fun _ =>
    ⟨s.pushed_faultAddr v, fun _ => s.pushed_faultWidth v, fun _ => s.pushed_faultOpcode v⟩⟩
  refine ⟨fun r hr => ?_, s.pushed_cfg v, s.pushed_run v, latch⟩
  rw [State.getReg_pushed, if_neg (List.ne_of_not_mem_cons hr)]

/-- Settles O10: out of bounds the push answers its error; in bounds it answers `pushed`, whose memory is a word write at
the old `sp`. -/
theorem pushWritesAtSpThenMovesDown : Obligations.PushWritesAtSpThenMovesDown := by
  intro s v
  refine ⟨State.push_error v, fun fits => ⟨s.pushed v, State.push_ok v fits, ?_⟩⟩
  have written := s.pushed_mem v
  have sfs : (s.pushed v).sfs = s.sfs + 2 := by rw [State.pushed_sfs, sum16_eq]
  exact ⟨wordAt_of_mem_eq_writeWord written, memKeptButWord_of_mem_eq_writeWord written, s.getReg_sp_pushed v, sfs,
    s.keepsBut_pushed v⟩

end Machine

end Sys2Proof
end

section
/-! The host's read-only surface as 60_exceptions §8 states it: when an inspection is answered, and the register dump. -/

namespace Sys2Proof.Machine

/-- An inspection between steps gives its answer (R186, R188, R215). -/
theorem State.inspect_of_ne_executing {α : Type} {s : State} (answer : Except HostError α) (h : s.run ≠ .executing) :
    s.inspect answer = answer :=
  if_neg h

/-- A register dump between steps pairs each register of the declaration order with its current value. -/
theorem State.dumpRegisters_of_ne_executing {s : State} (h : s.run ≠ .executing) :
    s.dumpRegisters = .ok (Reg.all.map fun r => (r, s.getReg r)) :=
  State.inspect_of_ne_executing _ h

/-- Settles O53: outside a step the dump runs along `Reg.all`, and `Reg.all` is the declaration order written out. -/
theorem dumpRegistersListsTheTwelveInOrder : Obligations.DumpRegistersListsTheTwelveInOrder := by
  intro s notExecuting
  rw [State.dumpRegisters_of_ne_executing notExecuting]
  simp only [Reg.all, List.map_cons, List.map_nil]

end Sys2Proof.Machine
end

section
/-! The encoder and the decoder as 30_encoding §1 to §3 states them: the decoder undoes the encoder, reads each format,
and consumes an instruction's own bytes, of which re-encoding changes the register operands' alone. -/

namespace Sys2Proof

/-! ### Decoding from an opcode byte -/

/-- With opcode values unique, an opcode byte leaves its operation's operands to decode (30_encoding R86, R88). -/
theorem decode_opcode {opc : Opc} (hi : opc.Injective) (op : Op) (bs : List Byte) :
    decode opc (opc.byte op :: bs) = decodeOperands takeByte takeWord op bs := by
  rw [decode_cons, Opc.lookup_byte hi]

/-- The operand bytes of an instruction, register operands in their canonical encoding. -/
def Instr.operandBytes (i : Instr) : List Byte := (encode Opc.reference i).tail

theorem encode_eq_opcode_cons (opc : Opc) (i : Instr) : encode opc i = opc.byte i.op :: i.operandBytes := by
  cases i <;> rfl

theorem fetchReg_takeByte_cons (b : Byte) (bs : List Byte) : fetchReg takeByte (b :: bs) = .ok (Reg.ofByte b) bs := rfl

/-- Decoding the operand bytes of an instruction gives its operands, each format field by field. -/
theorem decodeOperands_operandBytes (i : Instr) (rest : List Byte) :
    decodeOperands takeByte takeWord i.op (i.operandBytes ++ rest) = .ok i rest := by
  cases i <;>
    simp [Instr.op, Instr.operandBytes, encode, decodeOperands, fetchReg_takeByte_cons]

/-- Settles O1: the opcode byte selects the instruction's operation, and its operand bytes decode to its operands. -/
theorem encodeThenDecodeGivesTheInstruction : Obligations.EncodeThenDecodeGivesTheInstruction := by
  intro opc i rest injective
  rw [encode_eq_opcode_cons, List.cons_append, decode_opcode injective, decodeOperands_operandBytes]

/-- A word operand's value from its two bytes (30_encoding R82). -/
theorem ofNat_bytes_eq_ofBytes (h l : Byte) :
    (BitVec.ofNat 16 (h.toNat * 256 + l.toNat) : Word) = Word.ofBytes h l := by
  apply BitVec.eq_of_toNat_eq
  have := h.isLt
  have := l.isLt
  rw [Word.ofBytes_toNat, BitVec.toNat_ofNat]
  omega

/-- Settles O2: each opcode byte selects its row, and each operand is read by its own fetch. -/
theorem decodeReadsEveryFormat : Obligations.DecodeReadsEveryFormat := by
  intro opc a b c d rest injective
  simp only [decode_opcode injective, ofNat_bytes_eq_ofBytes]
  exact ⟨rfl, rfl, rfl, rfl, rfl, rfl, rfl, rfl, rfl, rfl⟩

/-- Settles O4: the decoder run on the five words. -/
theorem tableWordsDecode : Obligations.TableWordsDecode := by
  unfold Obligations.TableWordsDecode
  decide

/-! ### The bytes an instruction was decoded from -/

theorem takeByte_eq_ok {bs rest : List Byte} {b : Byte} : takeByte bs = .ok b rest ↔ bs = b :: rest := by
  cases bs <;> simp [takeByte]

theorem takeWord_eq_ok {bs rest : List Byte} {w : Word} :
    takeWord bs = .ok w rest ↔ bs = Word.hi w :: Word.lo w :: rest := by
  constructor
  · intro h
    match bs with
    | h' :: l :: tl => cases h; simp
    | [_] | [] => cases h
  · rintro rfl
    simp

theorem fetchReg_takeByte_eq_ok {bs rest : List Byte} {r : Reg} :
    fetchReg takeByte bs = .ok r rest ↔ ∃ b, bs = b :: rest ∧ Reg.ofByte b = r := by
  simp [fetchReg_eq, Fetched.andThen_eq_ok, takeByte_eq_ok]

/-- Operand bytes with each register operand's byte replaced by the canonical encoding of the register it names
(30_encoding R84). -/
def canonicalBytes : List OperandKind → List Byte → List Byte
  | .imm16 :: os, h :: l :: bs => h :: l :: canonicalBytes os bs
  | .reg :: os, b :: bs => (Reg.ofByte b).toByte :: canonicalBytes os bs
  | _, bs => bs

/-- `own` is the operand bytes of `i`, one operand after the other. -/
structure OperandBytesOf (i : Instr) (own : List Byte) : Prop where
  length_eq : own.length = (i.op.format.operands.map OperandKind.width).sum
  decode_eq : ∀ rest, decodeOperands takeByte takeWord i.op (own ++ rest) = .ok i rest
  canonical_eq : i.operandBytes = canonicalBytes i.op.format.operands own

/-- Operands that decode were read from their own bytes, whatever the format. -/
theorem decodeOperands_eq_ok {op : Op} {bs rest : List Byte} {i : Instr}
    (h : decodeOperands takeByte takeWord op bs = .ok i rest) :
    i.op = op ∧ ∃ own, bs = own ++ rest ∧ OperandBytesOf i own := by
  cases op <;>
    simp only [decodeOperands, Fetched.andThen_eq_ok, takeWord_eq_ok, fetchReg_takeByte_eq_ok, Fetched.ok.injEq] at h
  case movLitReg | movMemReg =>
    obtain ⟨w, _, rfl, _, _, ⟨b, rfl, rfl⟩, rfl, rfl⟩ := h
    exact ⟨rfl, [Word.hi w, Word.lo w, b], rfl, rfl,
      fun _ => by simp [Instr.op, decodeOperands, fetchReg_takeByte_cons], rfl⟩
  case movRegReg | addRegReg =>
    obtain ⟨_, _, ⟨a, rfl, rfl⟩, _, _, ⟨b, rfl, rfl⟩, rfl, rfl⟩ := h
    exact ⟨rfl, [a, b], rfl, rfl, fun _ => rfl, rfl⟩
  case movRegMem =>
    obtain ⟨_, _, ⟨b, rfl, rfl⟩, w, _, rfl, rfl, rfl⟩ := h
    exact ⟨rfl, [b, Word.hi w, Word.lo w], rfl, rfl,
      fun _ => by simp [Instr.op, decodeOperands, fetchReg_takeByte_cons], rfl⟩
  case jmpNotEq =>
    obtain ⟨v, _, rfl, w, _, rfl, rfl, rfl⟩ := h
    exact ⟨rfl, [Word.hi v, Word.lo v, Word.hi w, Word.lo w], rfl, rfl,
      fun _ => by simp [Instr.op, decodeOperands], rfl⟩
  case pshLit | calLit =>
    obtain ⟨w, _, rfl, rfl, rfl⟩ := h
    exact ⟨rfl, [Word.hi w, Word.lo w], rfl, rfl, fun _ => by simp [Instr.op, decodeOperands], rfl⟩
  case pshReg | pop =>
    obtain ⟨_, _, ⟨b, rfl, rfl⟩, rfl, rfl⟩ := h
    exact ⟨rfl, [b], rfl, rfl, fun _ => rfl, rfl⟩

/-- What decodes begins with an opcode byte, and its operands decode after it. -/
theorem decode_eq_ok {opc : Opc} {bytes rest : List Byte} {i : Instr} (h : decode opc bytes = .ok i rest) :
    opc.lookup (opc.byte i.op) = some i.op ∧
      ∃ own, bytes = opc.byte i.op :: (own ++ rest) ∧ OperandBytesOf i own := by
  cases bytes with
  | nil => cases h
  | cons b bs =>
    rw [decode_cons] at h
    split at h
    case h_1 => cases h
    case h_2 op found =>
      obtain ⟨rfl, own, rfl, isOwn⟩ := decodeOperands_eq_ok h
      rw [Opc.byte_of_lookup found]
      exact ⟨found, own, rfl, isOwn⟩

/-! ### Re-encoding -/

theorem Reg.toByte_ofByte (b : Byte) : (Reg.ofByte b).toByte = BitVec.ofNat 8 (b.toNat % 12) := by
  rw [Reg.toByte, Reg.index_ofByte]

theorem canonicalBytes_length (os : List OperandKind) (bs : List Byte) :
    (canonicalBytes os bs).length = bs.length := by
  fun_induction canonicalBytes os bs <;> simp [*]

/-- Operand fetches start where the operands do. -/
theorem le_of_mem_operandFetches {os : List OperandKind} {j : Nat} {f : Nat × Nat} (h : f ∈ operandFetches j os) :
    j ≤ f.1 := by
  induction os generalizing j with
  | nil => cases h
  | cons o os ih =>
    rcases List.mem_cons.1 h with rfl | h
    · exact Nat.le_refl j
    · exact Nat.le_trans (Nat.le_add_right j _) (ih h)

/-- No byte of a word operand is a register operand's. -/
theorem not_mem_operandFetches_imm16 (os : List OperandKind) (j : Nat) {k : Nat} (hk : k < 2) :
    (j + k, 1) ∉ operandFetches j (.imm16 :: os) := by
  intro mem
  rcases List.mem_cons.1 mem with e | mem
  · cases congrArg Prod.snd e
  · have after : j + 2 ≤ j + k := le_of_mem_operandFetches mem
    omega

/-- Byte by byte: a register operand's byte becomes the byte mod 12, and any other stays. -/
theorem getElem?_canonicalBytes (os : List OperandKind) (bs : List Byte) (j : Nat) {k : Nat} {b : Byte}
    (hb : bs[k]? = some b) :
    (canonicalBytes os bs)[k]? =
      some (if (j + k, 1) ∈ operandFetches j os then BitVec.ofNat 8 (b.toNat % 12) else b) := by
  fun_induction canonicalBytes os bs generalizing j k with
  | case1 os h l bs ih =>
    match k with
    | 0 | 1 =>
      rw [if_neg (not_mem_operandFetches_imm16 os j (by decide))]
      simpa using hb
    | k + 2 =>
      have rest := ih (j + 2) (k := k) hb
      simpa [operandFetches, OperandKind.width, Nat.add_assoc, Nat.add_comm 2 k] using rest
  | case2 os r bs ih =>
    match k with
    | 0 =>
      obtain rfl : r = b := by simpa using hb
      simp [operandFetches, OperandKind.width, Reg.toByte_ofByte]
    | k + 1 =>
      have rest := ih (j + 1) (k := k) hb
      simpa [operandFetches, OperandKind.width, Nat.add_assoc, Nat.add_comm 1 k] using rest
  | case3 os bs notWord notReg =>
    rw [hb, if_neg]
    match os, bs with
    | [], _ => exact List.not_mem_nil
    | .reg :: _, [] => cases hb
    | .reg :: _, _ :: _ => exact absurd rfl (notReg _ _ _ rfl)
    | .imm16 :: os, [_] =>
      obtain ⟨inside, _⟩ := List.getElem?_eq_some_iff.1 hb
      exact not_mem_operandFetches_imm16 os j (Nat.lt_succ_of_lt inside)
    | .imm16 :: _, [] => cases hb
    | .imm16 :: _, _ :: _ :: _ => exact absurd rfl (notWord _ _ _ _ rfl)

/-- The opcode byte stands before every operand. -/
theorem zero_not_mem_operandFetches (os : List OperandKind) (w : Nat) : (0, w) ∉ operandFetches 1 os :=
  fun mem => Nat.not_succ_le_zero 0 (le_of_mem_operandFetches mem)

/-- Re-encoding what was decoded from `own`, byte by byte. -/
theorem getElem?_encode_of_operandBytesOf {i : Instr} {own : List Byte} (isOwn : OperandBytesOf i own) (opc : Opc)
    {k : Nat} {b : Byte} (hb : (opc.byte i.op :: own)[k]? = some b) :
    (encode opc i)[k]? =
      some (if (k, 1) ∈ operandFetches 1 i.op.format.operands then BitVec.ofNat 8 (b.toNat % 12) else b) := by
  rw [encode_eq_opcode_cons, isOwn.canonical_eq]
  cases k with
  | zero => rwa [if_neg (zero_not_mem_operandFetches _ 1)]
  | succ k => simpa [Nat.add_comm 1 k] using getElem?_canonicalBytes i.op.format.operands own 1 hb

/-- Settles O3: the own bytes are the opcode byte and the operand bytes, and `canonicalBytes` is what re-encoding makes
of them. -/
theorem decodeConsumesExactlyTheInstruction : Obligations.DecodeConsumesExactlyTheInstruction := by
  intro opc bytes rest i decodes
  obtain ⟨found, own, rfl, isOwn⟩ := decode_eq_ok decodes
  have length : (encode opc i).length = (opc.byte i.op :: own).length := by
    rw [encode_eq_opcode_cons, isOwn.canonical_eq, List.length_cons, canonicalBytes_length, List.length_cons]
  refine ⟨opc.byte i.op :: own, rfl, ?_, ?_, length, fun k b => getElem?_encode_of_operandBytesOf isOwn opc, ?_⟩
  · rw [List.length_cons, isOwn.length_eq, Nat.add_comm]
    rfl
  · rw [decode_cons, found]
    simpa using isOwn.decode_eq []
  · intro canonical
    refine List.ext_getElem? fun k => ?_
    cases hb : (opc.byte i.op :: own)[k]? with
    | none => rw [List.getElem?_eq_none_iff] at hb ⊢; omega
    | some b =>
      rw [getElem?_encode_of_operandBytesOf isOwn opc hb]
      split
      case isFalse => rfl
      case isTrue mem =>
        rw [Nat.mod_eq_of_lt (canonical k b mem hb), BitVec.ofNat_toNat, BitVec.setWidth_eq]

end Sys2Proof
end

section
/-! Memory accesses and the stack as 20_memory §2 and 40_cycle_and_primitives §4 state them: an operation's answer is
its result when each of its accesses fits and else the first misfit (`State.checked`); pops, lists of pushes, the call
frame. -/

namespace Sys2Proof

/-! ### Words and their bytes -/

theorem Word.hi_eq_ofNat (v : Word) : Word.hi v = BitVec.ofNat 8 (v.toNat / 256) := by
  rw [← Word.hi_toNat, BitVec.ofNat_toNat, BitVec.setWidth_eq]

theorem Word.lo_eq_ofNat (v : Word) : Word.lo v = BitVec.ofNat 8 v.toNat := by
  apply BitVec.eq_of_toNat_eq
  rw [Word.lo_toNat, BitVec.toNat_ofNat]

namespace Machine

/-- The word that lies at `a` is the word a read there gives. -/
theorem wordValue_of_wordAt {t : State} {a : Nat} {v : Word} (h : WordAt t a v) : t.wordValue a = v := by
  obtain ⟨high, low⟩ := h
  apply BitVec.eq_of_toNat_eq
  have := v.isLt
  rw [State.wordValue, BitVec.toNat_ofNat, high, low]
  omega

/-- Settles O9: a word write leaves its two bytes, high byte first, and two byte writes leave the word they join to. -/
theorem mixedWidthAccessesAgree : Obligations.MixedWidthAccessesAgree := by
  intro s a v h l fits
  have highFits : a + 1 ≤ s.cfg.size := Nat.le_of_succ_le fits
  constructor
  · refine ⟨_, State.memWrite16_ok v fits, ?_, ?_, ?_⟩
    · rw [State.memRead16_eq_wordValue (by exact fits), wordValue_of_wordAt (wordAt_of_mem_eq_writeWord rfl)]
    · rw [State.memRead8_ok (by exact highFits), State.setMem_mem, Memory.read_writeWord, if_pos rfl, Word.hi_eq_ofNat]
    · rw [State.memRead8_ok (by exact fits), State.setMem_mem, Memory.read_writeWord, if_neg (Nat.succ_ne_self a),
        if_pos rfl, Word.lo_eq_ofNat]
  · refine ⟨_, _, State.memWrite8_ok h highFits, State.memWrite8_ok l (by exact fits), ?_⟩
    rw [State.memRead16_eq_wordValue (by exact fits), State.wordValue]
    simp [Memory.read_write]

/-! ### An answer that its accesses decide (20_memory R53; 60_exceptions R175) -/

theorem State.firstMisfit_eq_none {s : State} {l : List (Nat × Nat)} :
    s.firstMisfit l = none ↔ ∀ f ∈ l, s.Fits f.1 f.2 := by
  simp [State.firstMisfit]

/-- What the first misfit is: one of the accesses, and it does not fit. -/
theorem State.mem_of_firstMisfit {s : State} {l : List (Nat × Nat)} {f : Nat × Nat} (h : s.firstMisfit l = some f) :
    f ∈ l ∧ ¬ s.Fits f.1 f.2 := by
  refine ⟨List.mem_of_find?_eq_some h, ?_⟩
  simpa using List.find?_some h

/-- `x`, if each of the accesses fits; else the error of the first that does not. -/
def State.checked {α : Type} (s : State) (l : List (Nat × Nat)) (x : α) : Except StepError α :=
  match s.firstMisfit l with
  | none => .ok x
  | some f => .error (.outOfBounds f.1 f.2)

section
variable {α β : Type} {s : State} {l : List (Nat × Nat)} {a w : Nat}

theorem State.checked_ok (x : α) (h : s.firstMisfit l = none) : s.checked l x = .ok x := by
  rw [State.checked, h]

theorem State.checked_error (x : α) (h : s.firstMisfit l = some (a, w)) :
    s.checked l x = .error (.outOfBounds a w) := by
  rw [State.checked, h]

@[simp] theorem State.checked_nil (s : State) (x : α) : s.checked [] x = .ok x := rfl

theorem State.checked_cons_fits (x : α) (h : s.Fits a w) : s.checked ((a, w) :: l) x = s.checked l x := by
  rw [State.checked, State.firstMisfit_fits s h, State.checked]

theorem State.checked_cons_not_fits (x : α) (h : ¬ s.Fits a w) :
    s.checked ((a, w) :: l) x = .error (.outOfBounds a w) :=
  State.checked_error x (State.firstMisfit_not_fits s h)

theorem State.map_checked (s : State) (l : List (Nat × Nat)) (f : α → β) (x : α) :
    (s.checked l x).map f = s.checked l (f x) := by
  unfold State.checked
  cases s.firstMisfit l <;> rfl

end

theorem State.memRead16_eq_checked (s : State) (a : Nat) : s.memRead16 a = s.checked [(a, 2)] (s.wordValue a) := by
  by_cases h : s.Fits a 2
  · rw [State.checked_cons_fits _ h, State.memRead16_eq_wordValue h, State.checked_nil]
  · rw [State.checked_cons_not_fits _ h, State.memRead16_error (Nat.not_le.1 h)]

theorem State.memWrite16_eq_checked (s : State) (a : Nat) (v : Word) :
    s.memWrite16 a v = s.checked [(a, 2)] (s.setMem (s.mem.writeWord a v)) := by
  by_cases h : s.Fits a 2
  · rw [State.checked_cons_fits _ h, State.memWrite16_ok v h, State.checked_nil]
  · rw [State.checked_cons_not_fits _ h, State.memWrite16_error v (Nat.not_le.1 h)]

theorem State.push_eq_checked (s : State) (v : Word) :
    s.push v = s.checked [((s.getReg .sp).toNat, 2)] (s.pushed v) := by
  by_cases h : s.Fits (s.getReg .sp).toNat 2
  · rw [State.checked_cons_fits _ h, State.push_ok v h, State.checked_nil]
  · rw [State.checked_cons_not_fits _ h, State.push_error v (Nat.not_le.1 h)]

theorem State.topWord_eq_wordValue (s : State) : s.topWord = s.wordValue ((s.getReg .sp).toNat + 2) := by
  rw [State.wordValue_eq, State.topWord]

theorem State.pop_eq_checked (s : State) :
    s.pop = s.checked [((s.getReg .sp).toNat + 2, 2)] (s.wordValue ((s.getReg .sp).toNat + 2), s.popped) := by
  by_cases h : s.Fits ((s.getReg .sp).toNat + 2) 2
  · rw [State.checked_cons_fits _ h, State.pop_ok h, State.checked_nil, State.topWord_eq_wordValue]
  · rw [State.checked_cons_not_fits _ h, State.pop_error (Nat.not_le.1 h)]

/-! ### What single updates keep -/

theorem KeepsBut.refl (rs : List Reg) (s : State) : KeepsBut rs s s :=
  ⟨fun _ _ => rfl, rfl, rfl, rfl, fun _ => ⟨rfl, fun _ => rfl, fun _ => rfl⟩⟩

section
variable {rs : List Reg} {s t : State}

theorem KeepsBut.getReg_eq (h : KeepsBut rs s t) {r : Reg} (hr : r ∉ rs) : t.getReg r = s.getReg r := h.1 r hr

theorem KeepsBut.cfg_eq (h : KeepsBut rs s t) : t.cfg = s.cfg := h.2.1

theorem KeepsBut.run_eq (h : KeepsBut rs s t) : t.run = s.run := h.2.2.1

theorem KeepsBut.setMem (h : KeepsBut rs s t) (m : Memory) : KeepsBut rs s (t.setMem m) := h

theorem KeepsBut.setSfs (h : KeepsBut rs s t) (v : Word) : KeepsBut rs s (t.setSfs v) := h

theorem KeepsBut.setReg (h : KeepsBut rs s t) {r : Reg} (hr : r ∈ rs) (v : Word) : KeepsBut rs s (t.setReg r v) := by
  obtain ⟨regs, rest⟩ := h
  refine ⟨fun q hq => ?_, rest⟩
  rw [State.getReg_setReg_other t v (ne_of_mem_of_not_mem hr hq).symm, regs q hq]

theorem KeepsBut.pushed (h : KeepsBut rs s t) (hsp : .sp ∈ rs) (v : Word) : KeepsBut rs s (t.pushed v) :=
  ((h.setMem _).setReg hsp _).setSfs _

theorem KeepsBut.popped (h : KeepsBut rs s t) (hsp : .sp ∈ rs) : KeepsBut rs s t.popped :=
  (h.setReg hsp _).setSfs _

end

/-! ### Pop (R107) -/

theorem State.getReg_sp_popped (s : State) : s.popped.getReg .sp = s.getReg .sp + 2 := by
  rw [State.getReg_popped, if_pos rfl]
  apply BitVec.eq_of_toNat_eq
  rw [BitVec.toNat_ofNat, BitVec.toNat_add]
  rfl

/-- Settles O11: out of bounds the pop answers its error; in bounds it answers `popped`, and `sp + 2` is below 65536. -/
theorem popChecksUnboundedThenMovesUp : Obligations.PopChecksUnboundedThenMovesUp := by
  intro s
  refine ⟨State.pop_error, fun fits => ⟨s.popped, ?_, s.getReg_sp_popped, fun small => ?_, ?_, s.popped_mem, ?_⟩⟩
  · rw [State.pop_ok fits, State.topWord_eq_wordValue]
  · rw [State.getReg_popped, if_pos rfl, BitVec.toNat_ofNat]
    omega
  · rw [State.popped_sfs, diff16_eq]
  · exact (KeepsBut.refl _ s).popped List.mem_cons_self

/-! ### Lists of pushes -/

/-- What a list of pushes in bounds leaves. -/
def State.pushedAll (s : State) (ws : List Word) : State := ws.foldl State.pushed s

@[simp] theorem State.pushedAll_nil (s : State) : s.pushedAll [] = s := rfl

@[simp] theorem State.pushedAll_cons (s : State) (v : Word) (ws : List Word) :
    s.pushedAll (v :: ws) = (s.pushed v).pushedAll ws := rfl

theorem KeepsBut.pushedAll {rs : List Reg} {s t : State} (h : KeepsBut rs s t) (hsp : .sp ∈ rs) (ws : List Word) :
    KeepsBut rs s (t.pushedAll ws) := by
  induction ws generalizing t with
  | nil => exact h
  | cons v ws ih => exact ih (h.pushed hsp v)

theorem State.pushedAll_sfs (s : State) (ws : List Word) :
    (s.pushedAll ws).sfs = s.sfs + BitVec.ofNat 16 (2 * ws.length) := by
  induction ws generalizing s with
  | nil => simp
  | cons v ws ih =>
    rw [State.pushedAll_cons, ih, State.pushed_sfs, sum16_eq, List.length_cons, Nat.mul_succ, Nat.add_comm,
      BitVec.ofNat_add, BitVec.add_assoc]
    rfl

/-! ### The addresses of successive pushes (R108) -/

theorem State.frameAddr_zero (s : State) : s.frameAddr 0 = (s.getReg .sp).toNat := by
  have := (s.getReg .sp).isLt
  unfold State.frameAddr
  omega

theorem State.frameAddr_pushed (s : State) (v : Word) {k : Nat} (h : 2 * (k + 1) ≤ 65536) :
    (s.pushed v).frameAddr k = s.frameAddr (k + 1) := by
  have := (s.getReg .sp).isLt
  have two : (2 : Word).toNat = 2 := rfl
  simp only [State.frameAddr, State.getReg_pushed, if_pos, diff16_toNat, two]
  omega

theorem State.getReg_sp_pushedAll (s : State) (ws : List Word) :
    (s.pushedAll ws).getReg .sp = s.getReg .sp - BitVec.ofNat 16 (2 * ws.length) := by
  induction ws generalizing s with
  | nil => simp
  | cons v ws ih =>
    rw [State.pushedAll_cons, ih, State.getReg_sp_pushed, List.length_cons, Nat.mul_succ, BitVec.ofNat_add]
    generalize BitVec.ofNat 16 (2 * ws.length) = below
    bv_omega

/-- The (address, width) of each of `n` pushes in a row. -/
def State.frameAccesses (s : State) (n : Nat) : List (Nat × Nat) := (List.range n).map fun k => (s.frameAddr k, 2)

theorem State.frameAccesses_succ (s : State) (v : Word) {n : Nat} (h : 2 * (n + 1) ≤ 65536) :
    s.frameAccesses (n + 1) = ((s.getReg .sp).toNat, 2) :: (s.pushed v).frameAccesses n := by
  rw [State.frameAccesses, List.range_succ_eq_map, List.map_cons, State.frameAddr_zero, List.map_map]
  congr 1
  refine List.map_congr_left fun k hk => ?_
  have := List.mem_range.1 hk
  rw [Function.comp_apply, State.frameAddr_pushed s v (by omega)]

theorem State.firstMisfit_frameAccesses_eq_none {s : State} {n : Nat}
    (fits : ∀ k, k < n → s.frameAddr k + 2 ≤ s.cfg.size) : s.firstMisfit (s.frameAccesses n) = none := by
  simpa [State.firstMisfit_eq_none, State.frameAccesses] using fits

/-- The first push that does not fit is the one with the smallest index. -/
theorem State.firstMisfit_frameAccesses_eq_some {s : State} {n k : Nat} (hk : k < n)
    (bad : s.cfg.size < s.frameAddr k + 2) (first : ∀ j, j < k → s.frameAddr j + 2 ≤ s.cfg.size) :
    s.firstMisfit (s.frameAccesses n) = some (s.frameAddr k, 2) := by
  have found : (List.range n).find? (fun k => ! decide (s.Fits (s.frameAddr k) 2)) = some k := by
    simpa [List.find?_range_eq_some, hk, bad] using first
  rw [State.firstMisfit, State.frameAccesses, List.find?_map, Function.comp_def, found, Option.map_some]

/-- A list of pushes answers the state after all of them, or the error of the first that does not fit. -/
theorem State.pushAll_eq_checked (s : State) {ws : List Word} (h : 2 * ws.length ≤ 65536) :
    s.pushAll ws = s.checked (s.frameAccesses ws.length) (s.pushedAll ws) := by
  induction ws generalizing s with
  | nil => rfl
  | cons v ws ih =>
    rw [State.pushAll_cons, List.length_cons, State.frameAccesses_succ s v h]
    rcases s.push_cases v with ⟨fits, answer⟩ | ⟨misfit, answer⟩
    · rw [answer, State.checked_cons_fits _ fits]
      exact ih (s.pushed v) (Nat.le_trans (Nat.mul_le_mul_left 2 (Nat.le_succ _)) h)
    · rw [answer, State.checked_cons_not_fits _ (Nat.not_le.2 misfit)]

/-! ### What a list of pushes leaves in memory -/

/-- A byte in none of the pushed words reads as it did. -/
theorem State.read_pushedAll_other (s : State) {ws : List Word} (h : 2 * ws.length ≤ 65536) {x : Nat}
    (outside : ∀ k, k < ws.length → x ≠ s.frameAddr k ∧ x ≠ s.frameAddr k + 1) :
    (s.pushedAll ws).mem.read x = s.mem.read x := by
  induction ws generalizing s with
  | nil => rfl
  | cons v ws ih =>
    rw [List.length_cons] at h outside
    rw [State.pushedAll_cons, ih (s.pushed v) (by omega), State.pushed_mem, Memory.read_writeWord, ← s.frameAddr_zero,
      if_neg (outside 0 (Nat.succ_pos _)).1, if_neg (outside 0 (Nat.succ_pos _)).2]
    intro k hk
    rw [State.frameAddr_pushed s v (by omega)]
    exact outside (k + 1) (Nat.succ_lt_succ hk)

/-- Each pushed word lies at its own address: the later ones, all below it modulo 65536, do not reach it. -/
theorem State.wordAt_pushedAll (s : State) {ws : List Word} (h : 2 * ws.length ≤ 65536) {k : Nat} {v : Word}
    (hk : ws[k]? = some v) : WordAt (s.pushedAll ws) (s.frameAddr k) v := by
  induction ws generalizing s k with
  | nil => cases hk
  | cons w ws ih =>
    rw [List.length_cons] at h
    cases k with
    | zero =>
      obtain rfl : w = v := by simpa using hk
      have below : ∀ x, x = s.frameAddr 0 ∨ x = s.frameAddr 0 + 1 →
          (s.pushedAll (w :: ws)).mem.read x = (s.pushed w).mem.read x := by
        intro x hx
        refine State.read_pushedAll_other (s.pushed w) (by omega) fun k hk => ?_
        rw [State.frameAddr_pushed s w (by omega)]
        have := (s.getReg .sp).isLt
        unfold State.frameAddr at hx ⊢
        omega
      obtain ⟨high, low⟩ := wordAt_of_mem_eq_writeWord (s.pushed_mem w)
      rw [← s.frameAddr_zero] at high low
      exact ⟨by rw [below _ (.inl rfl), high], by rw [below _ (.inr rfl), low]⟩
    | succ k =>
      obtain ⟨inside, _⟩ := List.getElem?_eq_some_iff.1 hk
      rw [List.length_cons] at inside
      rw [← State.frameAddr_pushed s w (by omega)]
      exact ih (s.pushed w) (by omega) hk

/-! ### The call frame (R108) -/

/-- The ten words of a call frame, the frame size last (the spec's decision D7). -/
def State.frame (s : State) : List Word := s.frameWords ++ [s.sfs + 20]

/-- What a call frame pushed in bounds leaves. -/
def State.framed (s : State) : State :=
  ((s.pushedAll s.frame).setReg .fp ((s.pushedAll s.frame).getReg .sp)).setSfs 0

theorem State.pushAll_append (s : State) (ws vs : List Word) :
    s.pushAll (ws ++ vs) = (s.pushAll ws).bind fun t => t.pushAll vs := by
  induction ws generalizing s with
  | nil => rfl
  | cons w ws ih =>
    rw [List.cons_append, State.pushAll_cons, State.pushAll_cons]
    cases s.push w with
    | error e => rfl
    | ok t => exact ih t

theorem State.checked_eq_ok {α : Type} {s : State} {l : List (Nat × Nat)} {x y : α} (h : s.checked l x = .ok y) :
    s.firstMisfit l = none ∧ y = x := by
  unfold State.checked at h
  split at h
  · next fits => cases h; exact ⟨fits, rfl⟩
  · cases h

/-- The frame size is pushed last, when SFS counts the nine words before it (the spec's decision D7). -/
theorem State.pushState_eq_map (s : State) :
    s.pushState = (s.pushAll s.frame).map fun t => (t.setReg .fp (t.getReg .sp)).setSfs 0 := by
  rw [State.pushState, State.frame, State.pushAll_append]
  cases nine : s.pushAll s.frameWords with
  | error e => rfl
  | ok t =>
    rw [State.pushAll_eq_checked s (Nat.le_of_ble_eq_true rfl)] at nine
    have size : sum16 t.sfs 2 = s.sfs + 20 := by
      rw [(State.checked_eq_ok nine).2, State.pushedAll_sfs, sum16_eq, BitVec.add_assoc]
      rfl
    simp only [size, Except.bind, State.pushAll]
    cases t.push (s.sfs + 20) <;> rfl

/-- Pushing the frame answers the framed state, or the error of the first of the ten pushes that does not fit. -/
theorem State.pushState_eq_checked (s : State) : s.pushState = s.checked (s.frameAccesses 10) s.framed := by
  rw [State.pushState_eq_map, State.pushAll_eq_checked s (Nat.le_of_ble_eq_true rfl), State.map_checked]
  rfl

@[simp] theorem State.frame_length (s : State) : s.frame.length = 10 := rfl

theorem State.framed_mem (s : State) : s.framed.mem = (s.pushedAll s.frame).mem := by
  rw [State.framed, State.setSfs_mem, State.setReg_mem]

theorem State.framed_sfs (s : State) : s.framed.sfs = 0 := by rw [State.framed, State.setSfs_sfs]

theorem State.getReg_sp_pushedAll_frame (s : State) : (s.pushedAll s.frame).getReg .sp = s.getReg .sp - 20 := by
  rw [State.getReg_sp_pushedAll, State.frame_length]
  rfl

theorem State.getReg_sp_framed (s : State) : s.framed.getReg .sp = s.getReg .sp - 20 := by
  rw [State.framed, State.getReg_setSfs, State.getReg_setReg_other _ _ (by decide), State.getReg_sp_pushedAll_frame]

theorem State.getReg_fp_framed (s : State) : s.framed.getReg .fp = s.getReg .sp - 20 := by
  rw [State.framed, State.getReg_setSfs, State.getReg_setReg_same, State.getReg_sp_pushedAll_frame]

theorem State.keepsBut_framed (s : State) : KeepsBut [.sp, .fp] s s.framed := by
  have pushes : KeepsBut [.sp, .fp] s (s.pushedAll s.frame) := (KeepsBut.refl _ s).pushedAll List.mem_cons_self _
  exact (pushes.setReg (List.mem_cons_of_mem _ List.mem_cons_self) _).setSfs 0

/-- The ten words lie at their addresses, and the other bytes are as before (45_call R160). -/
theorem State.frameWritten_framed (s : State) : FrameWritten s s.framed := by
  have short : 2 * s.frame.length ≤ 65536 := by rw [State.frame_length]; decide
  have written {k : Nat} {v : Word} (hk : s.frame[k]? = some v) : WordAt s.framed (s.frameAddr k) v := by
    rw [WordAt, State.framed_mem]
    exact State.wordAt_pushedAll s short hk
  refine ⟨written rfl, written rfl, written rfl, written rfl, written rfl, written rfl, written rfl, written rfl,
    written rfl, written rfl, fun x outside => ?_⟩
  rw [State.framed_mem]
  exact State.read_pushedAll_other s short outside

/-- Settles O12: the ten checks decide between the error of the first misfit and the framed state. -/
theorem pushStateBuildsTheCallFrame : Obligations.PushStateBuildsTheCallFrame := by
  intro s
  constructor
  · intro k hk misfit first
    rw [State.pushState_eq_checked, State.checked_error _ (State.firstMisfit_frameAccesses_eq_some hk misfit first)]
  · intro fits
    refine ⟨s.framed, ?_, ?_⟩
    · rw [State.pushState_eq_checked, State.checked_ok _ (State.firstMisfit_frameAccesses_eq_none fits)]
    · obtain ⟨w0, w1, w2, w3, w4, w5, w6, w7, w8, w9, others⟩ := s.frameWritten_framed
      exact ⟨w0, w1, w2, w3, w4, w5, w6, w7, w8, w9, s.getReg_sp_framed, s.getReg_fp_framed, s.framed_sfs,
        s.keepsBut_framed, others⟩

/-! ### Pushes popped in reverse (R109) -/

theorem RegFile.set_set (f : RegFile) (r : Reg) (v w : Word) : (f.set r v).set r w = f.set r w := by
  cases r <;> rfl

theorem RegFile.set_get_self (f : RegFile) (r : Reg) : f.set r (f.get r) = f := by
  cases r <;> rfl

/-- A pop after a push that did not wrap restores the state, but for what memory holds by then. -/
theorem State.popped_setMem_pushed (s : State) (v : Word) (m : Memory) (h : 2 ≤ (s.getReg .sp).toNat) :
    ((s.pushed v).setMem m).popped = s.setMem m := by
  have sp : BitVec.ofNat 16 ((s.getReg .sp - 2).toNat + 2) = s.getReg .sp := by
    generalize s.getReg .sp = sp at h
    bv_omega
  have sfs : s.sfs + 2 - 2 = s.sfs := BitVec.add_sub_cancel _ _
  rw [State.popped, State.getReg_setMem, State.getReg_sp_pushed, sp, State.setMem_sfs, State.pushed_sfs, diff16_eq,
    sum16_eq, sfs]
  simp only [State.pushed, State.setReg, State.setSfs, State.setMem, State.getReg, RegFile.set_set,
    RegFile.set_get_self]

/-- The last of `k + 1` pops comes after `k` pops. -/
theorem State.popAll_succ {s t u : State} {k : Nat} {vs : List Word} {v : Word} (first : s.popAll k = .ok (vs, t))
    (last : t.pop = .ok (v, u)) : s.popAll (k + 1) = .ok (vs ++ [v], u) := by
  induction k generalizing s vs with
  | zero =>
    cases first
    simp [State.popAll, last]
  | succ k ih =>
    rw [State.popAll] at first ⊢
    split at first
    case h_1 => cases first
    case h_2 w s' popped =>
      split at first
      case h_1 => cases first
      case h_2 ws t' rest =>
        cases first
        rw [ih rest]
        rfl

/-- As many pops as pushes give the words in reverse, and the state as it was but for what the pushes wrote. -/
theorem State.popAll_pushedAll (s : State) (ws : List Word) (fits : (s.getReg .sp).toNat + 2 ≤ s.cfg.size)
    (above : 2 * ws.length ≤ (s.getReg .sp).toNat) :
    (s.pushedAll ws).popAll ws.length = .ok (ws.reverse, s.setMem (s.pushedAll ws).mem) := by
  induction ws generalizing s with
  | nil => rfl
  | cons v ws ih =>
    rw [List.length_cons] at above
    have bound := (s.getReg .sp).isLt
    have sp : ((s.pushed v).getReg .sp).toNat + 2 = (s.getReg .sp).toNat := by
      rw [State.getReg_sp_pushed]
      generalize s.getReg .sp = sp at above
      bv_omega
    have last : ((s.pushed v).setMem (s.pushedAll (v :: ws)).mem).pop =
        .ok (v, s.setMem (s.pushedAll (v :: ws)).mem) := by
      rw [State.pop_eq_checked, State.getReg_setMem, sp, State.checked_cons_fits _ (by exact fits), State.checked_nil,
        State.popped_setMem_pushed s v _ (by omega), ← State.frameAddr_zero]
      have word : WordAt (s.setMem (s.pushedAll (v :: ws)).mem) (s.frameAddr 0) v :=
        State.wordAt_pushedAll s (by rw [List.length_cons]; omega) rfl
      exact congrArg (fun w => Except.ok (w, _)) (wordValue_of_wordAt word)
    rw [List.reverse_cons, List.length_cons]
    exact State.popAll_succ (ih (s.pushed v) (by rw [State.pushed_cfg]; omega) (by omega)) last

/-- Settles O13: without a wrap every push fits below the first, and each pop undoes the latest push still standing. -/
theorem pushedWordsPopInReverse : Obligations.PushedWordsPopInReverse := by
  intro s ws fits above
  have bound := (s.getReg .sp).isLt
  have all : s.firstMisfit (s.frameAccesses ws.length) = none := by
    refine State.firstMisfit_frameAccesses_eq_none fun k hk => ?_
    unfold State.frameAddr
    omega
  refine ⟨_, _, ?_, s.popAll_pushedAll ws fits above, rfl, (KeepsBut.refl [] s).setMem _⟩
  rw [State.pushAll_eq_checked s (by omega), State.checked_ok _ all]

end Machine

end Sys2Proof
end

section
/-! The effect phase as 41 to 45 and 40_cycle_and_primitives §5 state it: every instruction answers its completed state
when each of its data accesses fits, and else the failure at the first that does not; each instruction's result
follows. -/

namespace Sys2Proof.Machine

/-! ### A failure (60_exceptions R176) -/

/-- The errors a step can raise: an access of one or two bytes that reaches past N, or a byte inside memory that is no
opcode. -/
def State.CanRaise (s : State) : StepError → Prop
  | .outOfBounds a w => (w = 1 ∨ w = 2) ∧ a ≤ 65537 ∧ s.cfg.size < a + w
  | .invalidOpcode b p => p.toNat < s.cfg.size ∧ s.cfg.opc.lookup b = none

/-- The latch is wide enough for every error a step can raise. -/
theorem State.latched_raise {s : State} {e : StepError} (h : s.CanRaise e) : (s.raise e).Latched e := by
  cases e with
  | outOfBounds a w =>
    obtain ⟨width, addr, _⟩ := h
    refine ⟨rfl, ?_, ?_⟩
    · rw [State.raise_outOfBounds_faultAddr, BitVec.toNat_ofNat]
      omega
    · rw [State.raise_outOfBounds_faultWidth, BitVec.toNat_ofNat]
      omega
  | invalidOpcode b p =>
    refine ⟨rfl, rfl, ?_⟩
    have := p.isLt
    rw [State.raise_invalidOpcode_faultAddr, BitVec.toNat_ofNat]
    omega

theorem State.failedFrom_raise {s : State} {e : StepError} (h : s.CanRaise e) :
    FailedFrom s (s.raise e) (s.getReg .ip) e :=
  ⟨s.raise_run e, s.getReg_raise e .ip, fun r _ => s.getReg_raise e r, s.raise_sfs e, s.raise_mem e, s.raise_cfg e,
    State.latched_raise h⟩

/-- Accesses of one or two bytes, at addresses an instruction can name. -/
def Nameable (l : List (Nat × Nat)) : Prop := ∀ f ∈ l, (f.2 = 1 ∨ f.2 = 2) ∧ f.1 ≤ 65537

theorem State.canRaise_of_firstMisfit {s : State} {l : List (Nat × Nat)} {a w : Nat} (hl : Nameable l)
    (h : s.firstMisfit l = some (a, w)) : s.CanRaise (.outOfBounds a w) := by
  obtain ⟨mem, misfit⟩ := State.mem_of_firstMisfit h
  obtain ⟨width, addr⟩ := hl _ mem
  exact ⟨width, addr, Nat.not_le.1 misfit⟩

theorem nameable_dataAccesses (s : State) (i : Instr) : Nameable (dataAccesses s i) := by
  have word {a : Nat} (ha : a ≤ 65537) : Nameable [(a, 2)] := List.forall_mem_singleton.2 ⟨.inr rfl, ha⟩
  have sp := (s.getReg .sp).isLt
  cases i with
  | movRegMem src a | movMemReg a d =>
    have := a.isLt
    exact word (by omega)
  | pshLit lit | pshReg src | pop d => exact word (by omega)
  | calLit target =>
    intro f hf
    obtain ⟨k, _, rfl⟩ := List.mem_map.1 hf
    have : s.frameAddr k < 65536 := Nat.mod_lt _ (by decide)
    exact ⟨.inr rfl, by simp only; omega⟩
  | movLitReg lit d | movRegReg src d | addRegReg a b | jmpNotEq lit target => exact fun _ hf => nomatch hf

/-! ### The completed state -/

/-- What the effect phase of an instruction leaves when each of its accesses fits. -/
def State.completed (s : State) : Instr → State
  | .movLitReg lit d => s.setReg d lit
  | .movRegReg src d => s.setReg d (s.getReg src)
  | .movRegMem src a => s.setMem (s.mem.writeWord a.toNat (s.getReg src))
  | .movMemReg a d => s.setReg d (s.wordValue a.toNat)
  | .addRegReg a b => s.setReg .acc (s.getReg a + s.getReg b)
  | .jmpNotEq lit target => s.setReg .ip (if lit = s.getReg .acc then s.getReg .ip else target)
  | .pshLit lit => s.pushed lit
  | .pshReg src => s.pushed (s.getReg src)
  | .pop d => s.popped.setReg d (s.wordValue ((s.getReg .sp).toNat + 2))
  | .calLit target => s.framed.setReg .ip target

/-- Writing to a register what it holds changes nothing. -/
theorem State.setReg_getReg (s : State) (r : Reg) : s.setReg r (s.getReg r) = s := by
  rw [State.setReg, State.getReg, RegFile.set_get_self]

/-- Every instruction completes when each of its data accesses fits, and else raises the first misfit. -/
theorem exec_eq_commit_checked (i : Instr) (s : State) :
    exec i s = s.commit (s.checked (dataAccesses s i) (s.completed i)) := by
  cases i with
  | movLitReg lit d | movRegReg src d => rfl
  | movRegMem src a => exact congrArg s.commit (s.memWrite16_eq_checked a.toNat (s.getReg src))
  | movMemReg a d =>
    show s.commit ((s.memRead16 a.toNat).map fun v => s.setReg d v) = _
    rw [State.memRead16_eq_checked, State.map_checked]
    rfl
  | addRegReg a b =>
    show Host.Outcome.next (s.setReg .acc (sum16 (s.getReg a) (s.getReg b))) = _
    rw [sum16_eq]
    rfl
  | jmpNotEq lit target =>
    show Host.Outcome.next (if differs lit (s.getReg .acc) then s.setReg .ip target else s) = .next (s.setReg .ip _)
    by_cases h : lit = s.getReg .acc
    · rw [if_neg (by simp [differs_eq_true, h]), if_pos h, State.setReg_getReg]
    · rw [if_pos ((differs_eq_true ..).2 h), if_neg h]
  | pshLit lit => exact congrArg s.commit (s.push_eq_checked lit)
  | pshReg src => exact congrArg s.commit (s.push_eq_checked (s.getReg src))
  | pop d =>
    show s.commit (s.pop.map fun p => p.2.setReg d p.1) = _
    rw [State.pop_eq_checked, State.map_checked]
    rfl
  | calLit target =>
    show s.commit (s.pushState.map fun t => t.setReg .ip target) = _
    rw [State.pushState_eq_checked, State.map_checked]
    rfl

theorem exec_completed {i : Instr} {s : State} (h : s.firstMisfit (dataAccesses s i) = none) :
    exec i s = .next (s.completed i) := by
  rw [exec_eq_commit_checked, State.checked_ok _ h, State.commit_ok]

theorem exec_raise {i : Instr} {s : State} {a w : Nat} (h : s.firstMisfit (dataAccesses s i) = some (a, w)) :
    exec i s = .next (s.raise (.outOfBounds a w)) := by
  rw [exec_eq_commit_checked, State.checked_error _ h, State.commit_error]

/-- Everything the effect phase can do. -/
theorem exec_cases (i : Instr) (s : State) :
    (s.firstMisfit (dataAccesses s i) = none ∧ exec i s = .next (s.completed i)) ∨
      ∃ a w, s.firstMisfit (dataAccesses s i) = some (a, w) ∧ exec i s = .next (s.raise (.outOfBounds a w)) := by
  cases h : s.firstMisfit (dataAccesses s i) with
  | none => exact .inl ⟨rfl, exec_completed h⟩
  | some f => exact .inr ⟨f.1, f.2, rfl, exec_raise h⟩

theorem KeepsBut.mono {rs rs' : List Reg} {s t : State} (h : KeepsBut rs s t) (sub : ∀ r ∈ rs, r ∈ rs') :
    KeepsBut rs' s t :=
  ⟨fun r hr => h.getReg_eq fun mem => hr (sub r mem), h.2⟩

/-- The completed state has the whole effect of the instruction and nothing more. -/
theorem effect_completed (s : State) (i : Instr) : Effect s (s.completed i) i := by
  have same (rs : List Reg) : KeepsBut rs s s := KeepsBut.refl rs s
  cases i with
  | movLitReg lit d | movRegReg src d | movMemReg a d =>
    exact ⟨s.getReg_setReg_same d _, (same _).setReg List.mem_cons_self _, rfl, fun _ => rfl⟩
  | movRegMem src a =>
    exact ⟨wordAt_of_mem_eq_writeWord rfl, memKeptButWord_of_mem_eq_writeWord rfl, (same _).setMem _, rfl⟩
  | addRegReg a b =>
    refine ⟨?_, (same _).setReg List.mem_cons_self _, rfl, fun _ => rfl⟩
    rw [State.completed, State.getReg_setReg_same, BitVec.toNat_add]
  | jmpNotEq lit target =>
    exact ⟨s.getReg_setReg_same .ip _, (same _).setReg List.mem_cons_self _, rfl, fun _ => rfl⟩
  | pshLit lit | pshReg src =>
    refine ⟨wordAt_of_mem_eq_writeWord (s.pushed_mem _), memKeptButWord_of_mem_eq_writeWord (s.pushed_mem _),
      s.getReg_sp_pushed _, ?_, s.keepsBut_pushed _⟩
    rw [State.completed, State.pushed_sfs, sum16_eq]
  | pop d =>
    have kept : KeepsBut [.sp, d] s s.popped := (same _).popped List.mem_cons_self
    refine ⟨State.getReg_setReg_same _ d _, fun hd => ?_, ?_,
      kept.setReg (List.mem_cons_of_mem _ List.mem_cons_self) _, fun _ => rfl⟩
    · rw [State.completed, State.getReg_setReg_other _ _ hd.symm, State.getReg_sp_popped]
    · rw [State.completed, State.setReg_sfs, State.popped_sfs, diff16_eq]
  | calLit target =>
    have kept : KeepsBut [.sp, .fp, .ip] s s.framed := s.keepsBut_framed.mono (by decide)
    refine ⟨s.frameWritten_framed, ?_, ?_, State.getReg_setReg_same _ .ip target, s.framed_sfs,
      kept.setReg (by decide) target⟩
    · rw [State.completed, State.getReg_setReg_other _ _ (by decide), State.getReg_sp_framed]
    · rw [State.completed, State.getReg_setReg_other _ _ (by decide), State.getReg_fp_framed]

/-- Settles O44: the first misfit, if any, decides between the failure and the completed state. -/
theorem effectPhaseIsAllOrNothing : Obligations.EffectPhaseIsAllOrNothing := by
  intro i s
  rcases exec_cases i s with ⟨fits, answer⟩ | ⟨a, w, misfit, answer⟩
  · refine ⟨_, answer, ?_⟩
    rw [fits]
    exact effect_completed s i
  · refine ⟨_, answer, ?_⟩
    rw [misfit]
    exact State.failedFrom_raise (State.canRaise_of_firstMisfit (nameable_dataAccesses s i) misfit)

/-! ### The results of the instructions, where they complete (41 to 45) -/

/-- An instruction whose data accesses fit leaves its whole effect. -/
theorem exec_effect (i : Instr) (s : State) (fits : ∀ f ∈ dataAccesses s i, s.Fits f.1 f.2) :
    ∃ t, exec i s = .next t ∧ Effect s t i :=
  ⟨_, exec_completed (State.firstMisfit_eq_none.2 fits), effect_completed s i⟩

/-- Whatever state such an instruction answers has its whole effect. -/
theorem effect_of_exec {i : Instr} {s t : State} (fits : ∀ f ∈ dataAccesses s i, s.Fits f.1 f.2)
    (h : exec i s = .next t) : Effect s t i := by
  rw [exec_completed (State.firstMisfit_eq_none.2 fits)] at h
  cases h
  exact effect_completed s i

/-- Settles O14: it has no data access, so its effect is always whole. -/
theorem movLitRegResult : Obligations.MovLitRegResult :=
  fun s lit d => exec_effect (.movLitReg lit d) s fun _ hf => nomatch hf

/-- Settles O15: as O14; the source keeps its value, also as the destination. -/
theorem movRegRegResult : Obligations.MovRegRegResult := by
  intro s src d
  obtain ⟨t, answer, value, kept, sfs, mem⟩ := exec_effect (.movRegReg src d) s fun _ hf => nomatch hf
  refine ⟨t, answer, value, ?_, kept, sfs, mem⟩
  by_cases same : src = d
  · rw [same, value, same]
  · exact kept.getReg_eq fun hs => same (List.mem_singleton.1 hs)

/-- Settles O16: its one access is the word at the effective address, which is the operand. -/
theorem movRegMemResult : Obligations.MovRegMemResult := by
  intro s src a fits
  obtain ⟨t, answer, word, others, kept, sfs⟩ :=
    exec_effect (.movRegMem src a) s (List.forall_mem_singleton.2 fits)
  exact ⟨t, answer, word, others, rfl, kept, sfs⟩

/-- Settles O17: its one access is the word at the address. -/
theorem movMemRegResult : Obligations.MovMemRegResult :=
  fun s a d fits => exec_effect (.movMemReg a d) s (List.forall_mem_singleton.2 fits)

/-- Settles O18: it has no data access, so its effect is always whole. -/
theorem addRegRegResult : Obligations.AddRegRegResult :=
  fun s a b => exec_effect (.addRegReg a b) s fun _ hf => nomatch hf

/-- Settles O19: it has no data access; its effect is the conditional value of `ip`. -/
theorem jmpNotEqResult : Obligations.JmpNotEqResult := by
  intro s lit target
  obtain ⟨t, answer, ip, rest⟩ := exec_effect (.jmpNotEq lit target) s fun _ hf => nomatch hf
  exact ⟨t, answer, fun ne => ip.trans (if_neg ne), fun eq => ip.trans (if_pos eq), rest⟩

/-- Settles O20: its one access is the word at `sp`. -/
theorem pshLitResult : Obligations.PshLitResult :=
  fun s lit fits => exec_effect (.pshLit lit) s (List.forall_mem_singleton.2 fits)

/-- Settles O21: its one access is the word at `sp`. -/
theorem pshRegResult : Obligations.PshRegResult :=
  fun s src fits => exec_effect (.pshReg src) s (List.forall_mem_singleton.2 fits)

/-- Settles O22: its one access is the word at the unbounded `sp + 2`. -/
theorem popResult : Obligations.PopResult :=
  fun s d fits => exec_effect (.pop d) s (List.forall_mem_singleton.2 fits)

/-- A call's data accesses fit when each of the ten frame addresses does. -/
theorem calLit_accesses_fit {s : State} (target : Word) (fits : ∀ k, k < 10 → s.frameAddr k + 2 ≤ s.cfg.size) :
    ∀ f ∈ dataAccesses s (.calLit target), s.Fits f.1 f.2 :=
  State.firstMisfit_eq_none.1 (State.firstMisfit_frameAccesses_eq_none fits)

/-- Settles O23: its accesses are the ten pushes of the frame. -/
theorem calLitResult : Obligations.CalLitResult := by
  intro s target fits
  obtain ⟨t, answer, frame, sp, fp, ip, sfs, kept⟩ := exec_effect (.calLit target) s (calLit_accesses_fit target fits)
  obtain ⟨w0, w1, w2, w3, w4, w5, w6, w7, w8, w9, others⟩ := frame
  exact ⟨t, answer, w0, w1, w2, w3, w4, w5, w6, w7, w8, w9, sp, fp, ip, sfs, kept, others⟩

theorem State.frameAddr_nine (s : State) : (s.getReg .sp - 20 + 2).toNat = s.frameAddr 9 := by
  unfold State.frameAddr
  generalize s.getReg .sp = sp
  bv_omega

/-- Settles O24: the new `fp` is `sp` - 20, and the last word of the frame, two above it, is SFS + 20. -/
theorem savedFrameSizeReachesThePreviousBase : Obligations.SavedFrameSizeReachesThePreviousBase := by
  intro s target fits
  obtain ⟨t, answer, frame, _, fp, _⟩ := exec_effect (.calLit target) s (calLit_accesses_fit target fits)
  obtain ⟨_, _, _, _, _, _, _, _, _, size, _⟩ := frame
  refine ⟨t, answer, ?_⟩
  rw [fp, State.frameAddr_nine, wordValue_of_wordAt size]
  generalize s.getReg .sp = sp
  bv_omega

/-! ### What is stored comes back -/

/-- A word lies wherever the same two bytes lie. -/
theorem WordAt.congr {t u : State} {a : Nat} {v : Word} (h : WordAt t a v) (high : u.mem.read a = t.mem.read a)
    (low : u.mem.read (a + 1) = t.mem.read (a + 1)) : WordAt u a v := by
  rw [WordAt, high, low]
  exact h

/-- Settles O25: the stored word still lies at the address, and the load reads it. -/
theorem storeThenLoadGivesTheStoredWord : Obligations.StoreThenLoadGivesTheStoredWord := by
  intro s t u src d a fits store cfg high low
  obtain ⟨word, _, kept, _⟩ := effect_of_exec (i := .movRegMem src a) (List.forall_mem_singleton.2 fits) store
  have loadFits : u.Fits a.toNat 2 := by rwa [State.Fits, cfg, kept.cfg_eq]
  obtain ⟨v, load, value, _⟩ := exec_effect (.movMemReg a d) u (List.forall_mem_singleton.2 loadFits)
  exact ⟨v, load, value.trans (wordValue_of_wordAt (word.congr high low))⟩

/-- Either push leaves its word at the old `sp`, and moves `sp` and SFS. -/
theorem effect_of_push {s t : State} {push : Instr} {v : Word}
    (isPush : push = .pshLit v ∨ ∃ src, push = .pshReg src ∧ s.getReg src = v) (fits : s.Fits (s.getReg .sp).toNat 2)
    (h : exec push s = .next t) : Effect s t (.pshLit v) := by
  rcases isPush with rfl | ⟨src, rfl, rfl⟩
  · exact effect_of_exec (List.forall_mem_singleton.2 fits) h
  · exact effect_of_exec (i := .pshReg src) (List.forall_mem_singleton.2 fits) h

/-- Settles O26: the pop's address is the old `sp`, where the pushed word still lies. -/
theorem pushThenPopGivesTheWordBack : Obligations.PushThenPopGivesTheWordBack := by
  intro s t u push v d isPush fits above pushed cfg sp sfs high low
  obtain ⟨word, _, spPushed, sfsPushed, kept⟩ := effect_of_push isPush fits pushed
  rw [spPushed] at sp
  rw [sfsPushed] at sfs
  have addr : (u.getReg .sp).toNat + 2 = (s.getReg .sp).toNat := by
    rw [sp]
    generalize s.getReg .sp = old at above
    bv_omega
  have popFits : u.Fits ((u.getReg .sp).toNat + 2) 2 := by rwa [State.Fits, addr, cfg, kept.cfg_eq]
  obtain ⟨w, answer, value, spPopped, sfsPopped, _⟩ := exec_effect (.pop d) u (List.forall_mem_singleton.2 popFits)
  refine ⟨w, answer, ?_, ?_, fun hd => ?_⟩
  · rw [value, addr, wordValue_of_wordAt (word.congr high low)]
  · rw [sfsPopped, sfs, BitVec.add_sub_cancel]
  · rw [spPopped hd, sp, BitVec.sub_add_cancel]

/-- Settles O27: the fetches at `a` read the two bytes the store left there. -/
theorem storeIsSeenByTheNextFetch : Obligations.StoreIsSeenByTheNextFetch := by
  intro s t src a fits store
  obtain ⟨word, _, kept, _⟩ := effect_of_exec (i := .movRegMem src a) (List.forall_mem_singleton.2 fits) store
  have ⟨high, _⟩ := word
  have wordFits : a.toNat + 2 ≤ t.cfg.size := by rwa [kept.cfg_eq]
  constructor
  · rw [State.fetch16_ok wordFits, ← State.wordValue_eq, wordValue_of_wordAt word, sum16_eq]
  · rw [State.fetch8_ok (Nat.le_of_succ_le wordFits), sum16_eq, ← high, BitVec.ofNat_toNat, BitVec.setWidth_eq]

end Sys2Proof.Machine
end

section
/-! A whole step as 40_cycle_and_primitives §1 and 60_exceptions §2, §3 state it: what the fetches at `ip` give, the
ways a step from Idle can go, and the first failing check that picks one. -/

namespace Sys2Proof.Machine

/-! ### Fetching the operands (R101) -/

/-- `r`, if each of the accesses fits; else the error of the first that does not, with `ip` left at its address. -/
def State.fetchedIf (s : State) (l : List (Nat × Nat)) (r : Fetched StepError Word Instr) :
    Fetched StepError Word Instr :=
  match s.firstMisfit l with
  | none => r
  | some f => .fail (.outOfBounds f.1 f.2) (BitVec.ofNat 16 f.1)

theorem State.fetchedIf_fits {s : State} {l : List (Nat × Nat)} (h : s.firstMisfit l = none)
    (r : Fetched StepError Word Instr) : s.fetchedIf l r = r := by
  rw [State.fetchedIf, h]

theorem State.fetchedIf_misfit {s : State} {l : List (Nat × Nat)} {a w : Nat} (h : s.firstMisfit l = some (a, w))
    (r : Fetched StepError Word Instr) :
    s.fetchedIf l r = .fail (.outOfBounds a w) (BitVec.ofNat 16 a) := by
  rw [State.fetchedIf, h]

theorem State.fetchedIf_fetchedIf (s : State) (l m : List (Nat × Nat)) (r : Fetched StepError Word Instr) :
    s.fetchedIf l (s.fetchedIf m r) = s.fetchedIf (l ++ m) r := by
  simp only [State.fetchedIf, State.firstMisfit_append]
  cases s.firstMisfit l <;> rfl

theorem State.ofNat_toNat_byteAddr (s : State) (k : Nat) : BitVec.ofNat 16 (s.byteAddr k).toNat = s.byteAddr k := by
  rw [BitVec.ofNat_toNat, BitVec.setWidth_eq]

theorem State.fetch16_andThen (s : State) (k : Nat) (f : Word → Word → Fetched StepError Word Instr) :
    (s.fetch16 (s.byteAddr k)).andThen f =
      s.fetchedIf [((s.byteAddr k).toNat, 2)] (f (s.operandWord k) (s.byteAddr (k + 2))) := by
  by_cases h : s.Fits (s.byteAddr k).toNat 2
  · rw [State.fetch16_fits s k h, State.fetchedIf_fits (State.firstMisfit_fits s h), Fetched.andThen_ok]
  · rw [State.fetch16_not_fits s k h, State.fetchedIf_misfit (State.firstMisfit_not_fits s h),
      State.ofNat_toNat_byteAddr, Fetched.andThen_fail]

theorem State.fetchReg_andThen (s : State) (k : Nat) (f : Reg → Word → Fetched StepError Word Instr) :
    (fetchReg s.fetch8 (s.byteAddr k)).andThen f =
      s.fetchedIf [((s.byteAddr k).toNat, 1)] (f (s.operandReg k) (s.byteAddr (k + 1))) := by
  by_cases h : s.Fits (s.byteAddr k).toNat 1
  · rw [State.fetchReg_fits s k h, State.fetchedIf_fits (State.firstMisfit_fits s h), Fetched.andThen_ok]
  · rw [State.fetchReg_not_fits s k h, State.fetchedIf_misfit (State.firstMisfit_not_fits s h),
      State.ofNat_toNat_byteAddr, Fetched.andThen_fail]

/-- The (address, width) of each operand fetch of `op` at `ip`. -/
def State.operandAccesses (s : State) (op : Op) : List (Nat × Nat) :=
  (operandFetches 1 op.format.operands).map fun f => ((s.byteAddr f.1).toNat, f.2)

/-- The operands after the opcode byte, one fetch after the other, whatever the format. -/
theorem State.decodeOperands_eq_fetchedIf (s : State) (op : Op) :
    decodeOperands s.fetch8 s.fetch16 op (s.byteAddr 1) =
      s.fetchedIf (s.operandAccesses op) (.ok (s.instrAt op) (s.byteAddr op.length)) := by
  cases op <;>
    simp only [decodeOperands, State.fetch16_andThen, State.fetchReg_andThen, State.fetchedIf_fetchedIf] <;>
    rfl

theorem width_of_mem_operandFetches {os : List OperandKind} {j : Nat} {f : Nat × Nat} (h : f ∈ operandFetches j os) :
    f.2 = 1 ∨ f.2 = 2 := by
  induction os generalizing j with
  | nil => cases h
  | cons o os ih =>
    rcases List.mem_cons.1 h with rfl | h
    · cases o
      · exact .inr rfl
      · exact .inl rfl
    · exact ih h

theorem nameable_operandAccesses (s : State) (op : Op) : Nameable (s.operandAccesses op) := by
  intro f hf
  obtain ⟨g, hg, rfl⟩ := List.mem_map.1 hf
  have := (s.byteAddr g.1).isLt
  exact ⟨width_of_mem_operandFetches (f := g) hg, by simp only; omega⟩

/-! ### Fetching the instruction at `ip` (R100) -/

section
variable {s : State} {op : Op}

theorem State.fetchInstr_opcode_misfit (h : ¬ s.Fits (s.getReg .ip).toNat 1) :
    s.fetchInstr = .fail (.outOfBounds (s.getReg .ip).toNat 1) (s.getReg .ip) := by
  rw [State.fetchInstr_eq, State.fetch8_fail (Nat.not_le.1 h), Fetched.andThen_fail]

theorem State.fetchInstr_no_opcode (fits : s.Fits (s.getReg .ip).toNat 1)
    (h : s.cfg.opc.lookup (s.mem.read (s.getReg .ip).toNat) = none) :
    s.fetchInstr = .fail (.invalidOpcode (s.mem.read (s.getReg .ip).toNat) (s.getReg .ip)) (s.byteAddr 1) := by
  rw [← State.byteAddr_zero] at fits h ⊢
  rw [State.fetchInstr_eq, ← State.byteAddr_zero, State.fetch8_fits s 0 fits, Fetched.andThen_ok, h]

theorem State.fetchInstr_opcode (fits : s.Fits (s.getReg .ip).toNat 1)
    (h : s.cfg.opc.lookup (s.mem.read (s.getReg .ip).toNat) = some op) :
    s.fetchInstr = s.fetchedIf (s.operandAccesses op) (.ok (s.instrAt op) (s.byteAddr op.length)) := by
  rw [← State.byteAddr_zero] at fits h
  rw [State.fetchInstr_eq, ← State.byteAddr_zero, State.fetch8_fits s 0 fits, Fetched.andThen_ok, h]
  exact s.decodeOperands_eq_fetchedIf op

end

/-! ### The ways a step from Idle can go (60_exceptions R175, R176) -/

theorem State.accesses_of_opcode {s : State} {op : Op}
    (h : s.cfg.opc.lookup (s.mem.read (s.getReg .ip).toNat) = some op) :
    s.accesses = ((s.getReg .ip).toNat, 1) :: (s.operandAccesses op ++ dataAccesses s (s.instrAt op)) := by
  rw [State.accesses, h]
  rfl

theorem State.accesses_of_no_opcode {s : State}
    (h : s.cfg.opc.lookup (s.mem.read (s.getReg .ip).toNat) = none) : s.accesses = [((s.getReg .ip).toNat, 1)] := by
  rw [State.accesses, h]

theorem nameable_accesses (s : State) : Nameable s.accesses := by
  have ip := (s.getReg .ip).isLt
  cases h : s.cfg.opc.lookup (s.mem.read (s.getReg .ip).toNat) with
  | none =>
    rw [State.accesses_of_no_opcode h]
    exact List.forall_mem_singleton.2 ⟨.inl rfl, by simp only; omega⟩
  | some op =>
    rw [State.accesses_of_opcode h]
    refine List.forall_mem_cons.2 ⟨⟨.inl rfl, by simp only; omega⟩, fun f hf => ?_⟩
    rcases List.mem_append.1 hf with hf | hf
    · exact nameable_operandAccesses s op f hf
    · exact nameable_dataAccesses s _ f hf

/-- The state after the fetches that fit, the error `e` raised in it. -/
def State.failed (s : State) (ip : Word) (e : StepError) : State := (s.enterStep ip).raise e

theorem State.failedFrom_failed {s : State} {e : StepError} (h : s.CanRaise e) (ip : Word) :
    FailedFrom s (s.failed ip e) ip e := by
  obtain ⟨run, hip, regs, rest⟩ := State.failedFrom_raise (s := s.enterStep ip) h
  exact ⟨run, hip, fun r hr => (regs r hr).trans (s.getReg_enterStep_other ip hr), rest⟩

/-- The state after the whole instruction of operation `op` at `ip`. -/
def State.stepped (s : State) (op : Op) : State :=
  ((s.enterStep (s.byteAddr op.length)).completed (s.instrAt op)).leaveStep

section
variable {s : State} (idle : s.run = .idle)
include idle

theorem step_opcode_misfit (h : ¬ s.Fits (s.getReg .ip).toNat 1) :
    step s = .next (s.failed (s.getReg .ip) (.outOfBounds (s.getReg .ip).toNat 1)) :=
  step_fetch_failed idle (State.fetchInstr_opcode_misfit h)

theorem step_no_opcode (fits : s.Fits (s.getReg .ip).toNat 1)
    (h : s.cfg.opc.lookup (s.mem.read (s.getReg .ip).toNat) = none) :
    step s = .next (s.failed (s.byteAddr 1) (.invalidOpcode (s.mem.read (s.getReg .ip).toNat) (s.getReg .ip))) :=
  step_fetch_failed idle (State.fetchInstr_no_opcode fits h)

variable {op : Op} (fits : s.Fits (s.getReg .ip).toNat 1)
  (opcode : s.cfg.opc.lookup (s.mem.read (s.getReg .ip).toNat) = some op) {a w : Nat}
include fits opcode

theorem step_operand_misfit (h : s.firstMisfit (s.operandAccesses op) = some (a, w)) :
    step s = .next (s.failed (BitVec.ofNat 16 a) (.outOfBounds a w)) := by
  refine step_fetch_failed idle ?_
  rw [State.fetchInstr_opcode fits opcode, State.fetchedIf_misfit h]

theorem step_operands_fit (h : s.firstMisfit (s.operandAccesses op) = none) :
    step s = finishStep (exec (s.instrAt op) (s.enterStep (s.byteAddr op.length))) := by
  refine step_fetched idle ?_
  rw [State.fetchInstr_opcode fits opcode, State.fetchedIf_fits h]

theorem step_data_misfit (h : s.firstMisfit (s.operandAccesses op) = none)
    (hd : s.firstMisfit (dataAccesses s (s.instrAt op)) = some (a, w)) :
    step s = .next (s.failed (s.byteAddr op.length) (.outOfBounds a w)) := by
  rw [← dataAccesses_enterStep s (s.byteAddr op.length)] at hd
  rw [step_operands_fit idle fits opcode h, exec_raise (s := s.enterStep _) hd]
  rfl

theorem step_completes (h : s.firstMisfit (s.operandAccesses op) = none)
    (hd : s.firstMisfit (dataAccesses s (s.instrAt op)) = none) : step s = .next (s.stepped op) := by
  rw [← dataAccesses_enterStep s (s.byteAddr op.length)] at hd
  rw [step_operands_fit idle fits opcode h, exec_completed (s := s.enterStep _) hd]
  rfl

end

/-- Everything a step from Idle can do: fail at the first misfit, at a byte that is no opcode, or complete. -/
inductive StepGoes (s : State) : State → Prop
  | misfit {a w : Nat} (ip : Word) (first : s.firstMisfit s.accesses = some (a, w)) :
      StepGoes s (s.failed ip (.outOfBounds a w))
  | noOpcode (fits : s.firstMisfit s.accesses = none)
      (unlisted : s.cfg.opc.lookup (s.mem.read (s.getReg .ip).toNat) = none) :
      StepGoes s (s.failed (s.byteAddr 1) (.invalidOpcode (s.mem.read (s.getReg .ip).toNat) (s.getReg .ip)))
  | completes {op : Op} (fits : s.firstMisfit s.accesses = none)
      (opcode : s.cfg.opc.lookup (s.mem.read (s.getReg .ip).toNat) = some op) : StepGoes s (s.stepped op)

theorem step_goes {s : State} (idle : s.run = .idle) : ∃ t, step s = .next t ∧ StepGoes s t := by
  by_cases fits : s.Fits (s.getReg .ip).toNat 1
  case neg => exact ⟨_, step_opcode_misfit idle fits, .misfit _ (State.firstMisfit_not_fits s fits)⟩
  cases opcode : s.cfg.opc.lookup (s.mem.read (s.getReg .ip).toNat) with
  | none =>
    refine ⟨_, step_no_opcode idle fits opcode, .noOpcode ?_ opcode⟩
    rw [State.accesses_of_no_opcode opcode, State.firstMisfit_fits s fits, State.firstMisfit_nil]
  | some op =>
    have all : s.firstMisfit s.accesses =
        (s.firstMisfit (s.operandAccesses op)).or (s.firstMisfit (dataAccesses s (s.instrAt op))) := by
      rw [State.accesses_of_opcode opcode, State.firstMisfit_fits s fits, State.firstMisfit_append]
    cases operands : s.firstMisfit (s.operandAccesses op) with
    | some f => exact ⟨_, step_operand_misfit idle fits opcode operands, .misfit _ (by rw [all, operands]; rfl)⟩
    | none =>
      cases data : s.firstMisfit (dataAccesses s (s.instrAt op)) with
      | some f =>
        exact ⟨_, step_data_misfit idle fits opcode operands data, .misfit _ (by rw [all, operands, data]; rfl)⟩
      | none =>
        exact ⟨_, step_completes idle fits opcode operands data, .completes (by rw [all, operands, data]; rfl) opcode⟩

/-- What a step that answers `t` from Idle did. -/
theorem stepGoes_of_step {s t : State} (idle : s.run = .idle) (h : step s = .next t) : StepGoes s t := by
  obtain ⟨u, answer, goes⟩ := step_goes idle
  rw [h] at answer
  cases answer
  exact goes

/-- When every access of a step fits, so does its opcode fetch. -/
theorem State.opcode_fits {s : State} (fits : s.firstMisfit s.accesses = none) : s.Fits (s.getReg .ip).toNat 1 :=
  State.firstMisfit_eq_none.1 fits _ List.mem_cons_self

theorem State.canRaise_invalidOpcode {s : State} (fits : s.Fits (s.getReg .ip).toNat 1)
    (unlisted : s.cfg.opc.lookup (s.mem.read (s.getReg .ip).toNat) = none) :
    s.CanRaise (.invalidOpcode (s.mem.read (s.getReg .ip).toNat) (s.getReg .ip)) :=
  ⟨fits, unlisted⟩

/-! ### The effect of a completed step -/

/-- An effect keeps every register the instruction does not write, the parameters, RUN and the latch. -/
theorem Effect.keeps {s t : State} {i : Instr} (h : Effect s t i) : KeepsBut i.writes s t := by
  cases i with
  | movLitReg | movRegReg | movMemReg | addRegReg | jmpNotEq =>
    obtain ⟨_, kept, _⟩ := h
    exact kept
  | movRegMem =>
    obtain ⟨_, _, kept, _⟩ := h
    exact kept
  | pshLit | pshReg =>
    obtain ⟨_, _, _, _, kept⟩ := h
    exact kept
  | pop =>
    obtain ⟨_, _, _, kept, _⟩ := h
    exact kept
  | calLit =>
    obtain ⟨_, _, _, _, _, kept⟩ := h
    exact kept

theorem KeepsBut.setRun {rs : List Reg} {s t : State} (h : KeepsBut rs s t) (x : RunState) :
    KeepsBut rs (s.setRun x) (t.setRun x) := by
  obtain ⟨regs, cfg, _, latch⟩ := h
  exact ⟨regs, cfg, rfl, latch⟩

/-- An effect does not depend on RUN. -/
theorem Effect.setRun {s t : State} {i : Instr} (h : Effect s t i) (x : RunState) :
    Effect (s.setRun x) (t.setRun x) i := by
  cases i with
  | movLitReg | movRegReg | movMemReg | addRegReg | jmpNotEq =>
    obtain ⟨value, kept, rest⟩ := h
    exact ⟨value, kept.setRun x, rest⟩
  | movRegMem =>
    obtain ⟨word, others, kept, sfs⟩ := h
    exact ⟨word, others, kept.setRun x, sfs⟩
  | pshLit | pshReg =>
    obtain ⟨word, others, sp, sfs, kept⟩ := h
    exact ⟨word, others, sp, sfs, kept.setRun x⟩
  | pop =>
    obtain ⟨value, sp, sfs, kept, mem⟩ := h
    exact ⟨value, sp, sfs, kept.setRun x, mem⟩
  | calLit =>
    obtain ⟨frame, sp, fp, ip, sfs, kept⟩ := h
    exact ⟨frame, sp, fp, ip, sfs, kept.setRun x⟩

theorem State.stepped_eq_setRun (s : State) (op : Op) :
    s.stepped op = ((s.enterStep (s.byteAddr op.length)).completed (s.instrAt op)).setRun .idle :=
  if_pos (effect_completed (s.enterStep _) _).keeps.run_eq

/-- A completed step has the whole effect of the instruction at `ip`, from the post-fetch `ip`. -/
theorem effect_stepped {s : State} (idle : s.run = .idle) (op : Op) :
    Effect (s.setReg .ip (s.byteAddr op.length)) (s.stepped op) (s.instrAt op) := by
  have post : s.setReg .ip (s.byteAddr op.length) = (s.enterStep (s.byteAddr op.length)).setRun .idle := by
    rw [← idle]
    rfl
  rw [post, State.stepped_eq_setRun]
  exact (effect_completed _ _).setRun .idle

/-! ### The statements on every step -/

/-- Settles O57: each way a step can go, with what its first failing check is. -/
theorem firstFailingCheckDecidesTheStep : Obligations.FirstFailingCheckDecidesTheStep := by
  intro s idle
  obtain ⟨t, answer, goes⟩ := step_goes idle
  refine ⟨t, answer, ?_⟩
  cases goes with
  | misfit ip first =>
    rw [first]
    exact State.failedFrom_failed (State.canRaise_of_firstMisfit (nameable_accesses s) first) ip
  | noOpcode fits unlisted =>
    rw [fits, unlisted]
    exact State.failedFrom_failed (State.canRaise_invalidOpcode (State.opcode_fits fits) unlisted) _
  | completes fits opcode =>
    rw [fits, opcode]
    exact effect_stepped idle _

/-- Settles O43: a step that ends Faulted did not complete, and either failure changes only `ip`, RUN and the latch. -/
theorem failedStepChangesOnlyIp : Obligations.FailedStepChangesOnlyIp := by
  intro s t idle answer faulted
  cases stepGoes_of_step idle answer with
  | misfit ip first =>
    exact ⟨_, State.failedFrom_failed (State.canRaise_of_firstMisfit (nameable_accesses s) first) ip, first⟩
  | noOpcode fits unlisted =>
    have opcodeFits := State.opcode_fits fits
    exact ⟨_, State.failedFrom_failed (State.canRaise_invalidOpcode opcodeFits unlisted) _, rfl, opcodeFits, rfl,
      unlisted⟩
  | completes =>
    rw [State.stepped_eq_setRun] at faulted
    cases faulted

/-- Settles O39: in Faulted a step answers the same state, and from Idle it ends Faulted or Idle. -/
theorem everyStepRequestCompletes : Obligations.EveryStepRequestCompletes := by
  intro s notExecuting
  cases run : s.run with
  | executing => exact absurd run notExecuting
  | faulted => exact ⟨s, step_faulted run, notExecuting, rfl⟩
  | idle =>
    obtain ⟨t, answer, goes⟩ := step_goes run
    refine ⟨t, answer, ?_⟩
    cases goes with
    | misfit | noOpcode => exact ⟨fun h => RunState.noConfusion h, State.raise_cfg _ _⟩
    | @completes op =>
      have kept := (effect_stepped run op).keeps
      exact ⟨fun h => notExecuting (kept.run_eq.symm.trans h), kept.cfg_eq⟩

/-- Settles O41: the opcode byte is fetched, and the dispatch table has no row for it. -/
theorem unlistedOpcodeFailsTheStep : Obligations.UnlistedOpcodeFailsTheStep := by
  intro s idle fits unlisted
  have noRow := Opc.lookup_eq_none.2 unlisted
  exact ⟨_, step_no_opcode idle fits noRow, State.failedFrom_failed (State.canRaise_invalidOpcode fits noRow) _⟩

/-- The first misfit is the access after those that fit. -/
theorem State.firstMisfit_append_cons {s : State} {done later : List (Nat × Nat)} {a w : Nat}
    (fits : ∀ f ∈ done, s.Fits f.1 f.2) (misfit : ¬ s.Fits a w) :
    s.firstMisfit (done ++ (a, w) :: later) = some (a, w) := by
  rw [State.firstMisfit_append, State.firstMisfit_eq_none.2 fits, Option.none_or, State.firstMisfit_not_fits s misfit]

/-- A step whose first operand misfit is at byte `k` fails there. -/
theorem step_fails_at_operand {s : State} {op : Op} {k w : Nat} (idle : s.run = .idle)
    (fits : s.Fits (s.getReg .ip).toNat 1) (opcode : s.cfg.opc.lookup (s.mem.read (s.getReg .ip).toNat) = some op)
    (h : s.firstMisfit (s.operandAccesses op) = some ((s.byteAddr k).toNat, w)) :
    ∃ t, step s = .next t ∧ FailedFrom s t (s.byteAddr k) (.outOfBounds (s.byteAddr k).toNat w) := by
  have answer := step_operand_misfit idle fits opcode h
  rw [State.ofNat_toNat_byteAddr] at answer
  exact ⟨_, answer,
    State.failedFrom_failed (State.canRaise_of_firstMisfit (nameable_operandAccesses s op) h) _⟩

/-- Settles O42: the opcode fetch is the first check, and the operand fetches follow in order. -/
theorem firstFetchThatDoesNotFitFailsTheStep : Obligations.FirstFetchThatDoesNotFitFailsTheStep := by
  intro s idle
  constructor
  · intro misfit
    have first : s.firstMisfit s.accesses = some ((s.getReg .ip).toNat, 1) := State.firstMisfit_not_fits s misfit
    exact ⟨_, step_opcode_misfit idle misfit,
      State.failedFrom_failed (State.canRaise_of_firstMisfit (nameable_accesses s) first) _⟩
  · intro op done later k w fits opcode fetches doneFit misfit
    have operands : operandFetches 1 op.format.operands = done ++ (k, w) :: later := List.tail_eq_of_cons_eq fetches
    refine step_fails_at_operand idle fits opcode ?_
    rw [State.operandAccesses, operands, List.map_append, List.map_cons]
    exact State.firstMisfit_append_cons (List.forall_mem_map.2 doneFit) misfit

/-! ### The decoder on the bytes at `ip` (R87) -/

/-- An operand word that fits is the bytes at `p_k` and `p_(k+1)`: inside memory the second address does not wrap. -/
theorem State.operandWord_eq_ofBytes {s : State} {k : Nat} (small : s.cfg.size ≤ 65536)
    (h : s.Fits (s.byteAddr k).toNat 2) :
    s.operandWord k =
      Word.ofBytes (s.mem.read (s.byteAddr k).toNat) (s.mem.read (s.byteAddr (k + 1)).toNat) := by
  have next : (s.byteAddr (k + 1)).toNat = (s.byteAddr k).toNat + 1 := by
    simp only [State.Fits, State.byteAddr, BitVec.toNat_ofNat] at h ⊢
    omega
  rw [State.operandWord, State.wordValue_eq, next]

/-- The bytes at `ip` decode to the instruction that a fetch there gives, when each fetch fits. -/
theorem decode_bytesAtIp {s : State} {op : Op} (small : s.cfg.size ≤ 65536)
    (opcode : s.cfg.opc.lookup (s.mem.read (s.getReg .ip).toNat) = some op)
    (fits : ∀ f ∈ op.fetches, s.Fits (s.byteAddr f.1).toNat f.2) :
    decode s.cfg.opc (s.bytesAtIp op.length) = .ok (s.instrAt op) [] := by
  have bytes : s.bytesAtIp op.length = s.mem.read (s.getReg .ip).toNat ::
      (List.range (op.length - 1)).map fun k => s.mem.read (s.byteAddr (k + 1)).toNat := by
    rw [← State.byteAddr_zero]
    cases op <;> rfl
  have word {k : Nat} (hk : (k, 2) ∈ op.fetches) := State.operandWord_eq_ofBytes small (fits _ hk)
  rw [bytes, decode_cons, opcode]
  cases op with
  | movLitReg | movMemReg | pshLit | calLit =>
    rw [State.instrAt, word (k := 1) (by decide)]
    rfl
  | movRegMem =>
    rw [State.instrAt, word (k := 2) (by decide)]
    rfl
  | jmpNotEq =>
    rw [State.instrAt, word (k := 1) (by decide), word (k := 3) (by decide)]
    rfl
  | movRegReg | addRegReg | pshReg | pop => rfl

/-- The first byte of what decodes is its operation's opcode. -/
theorem lookup_of_decode_bytesAtIp {s : State} {i : Instr} {rest : List Byte} {n : Nat}
    (h : decode s.cfg.opc (s.bytesAtIp (n + 1)) = .ok i rest) :
    s.cfg.opc.lookup (s.mem.read (s.getReg .ip).toNat) = some i.op := by
  obtain ⟨found, own, bytes, _⟩ := decode_eq_ok h
  rw [State.bytesAtIp, List.range_succ_eq_map, List.map_cons, List.cons_eq_cons, State.byteAddr_zero] at bytes
  obtain ⟨first, _⟩ := bytes
  rw [first, found]

/-- Settles O38: the bytes at `ip` decode to the instruction that the step fetches, so the step runs its handler. -/
theorem stepRunsTheDecodedInstruction : Obligations.StepRunsTheDecodedInstruction := by
  intro s i ⟨_, small, _⟩ idle _ decodes fits
  have opcode : s.cfg.opc.lookup (s.mem.read (s.getReg .ip).toNat) = some i.op := by
    rw [Instr.length, Op.length, Nat.add_comm] at decodes
    exact lookup_of_decode_bytesAtIp decodes
  have fetched : i = s.instrAt i.op := by
    have same := decode_bytesAtIp small opcode fits
    rw [← Instr.length, decodes] at same
    exact (Fetched.ok.inj same).1
  obtain ⟨opcodeFits, operandsFit⟩ := List.forall_mem_cons.1 fits
  rw [State.byteAddr_zero] at opcodeFits
  have answer := step_operands_fit idle opcodeFits opcode
    (State.firstMisfit_eq_none.2 (List.forall_mem_map.2 operandsFit))
  rw [← fetched] at answer
  exact answer

end Sys2Proof.Machine
end

section
/-! Whole steps at each of the ten instructions, as 41 to 45 and the table of 60_exceptions R176 state them: the first
fetch or data access that does not fit fails the step, and else the instruction has its effect from the post-fetch
`ip`. -/

namespace Sys2Proof.Machine

/-! ### Where one or two operands stand -/

section
variable {s : State} {a b v w : Nat}

theorem State.firstMisfit_singleton (h : s.Fits a v) : s.firstMisfit [(a, v)] = none := by
  rw [State.firstMisfit_fits s h, State.firstMisfit_nil]

theorem State.firstMisfit_pair (h : s.Fits a v) (h' : s.Fits b w) : s.firstMisfit [(a, v), (b, w)] = none := by
  rw [State.firstMisfit_fits s h, State.firstMisfit_singleton h']

theorem State.firstMisfit_second (h : s.Fits a v) (h' : ¬ s.Fits b w) :
    s.firstMisfit [(a, v), (b, w)] = some (b, w) := by
  rw [State.firstMisfit_fits s h, State.firstMisfit_not_fits s h']

end

/-! ### A step at an opcode -/

section
variable {s : State} {op : Op} (injective : s.cfg.opc.Injective) (at_op : s.AtOpcode op)
include injective at_op

theorem State.AtOpcode.lookup : s.cfg.opc.lookup (s.mem.read (s.getReg .ip).toNat) = some op := by
  obtain ⟨_, _, opcode⟩ := at_op
  rw [opcode, Opc.lookup_byte injective]

/-- The first operand fetch that does not fit fails the step, `ip` left at its address. -/
theorem State.AtOpcode.fails_at_operand {k w : Nat}
    (h : s.firstMisfit (s.operandAccesses op) = some ((s.byteAddr k).toNat, w)) :
    ∃ t, step s = .next t ∧ FailedFrom s t (s.byteAddr k) (.outOfBounds (s.byteAddr k).toNat w) := by
  have ⟨idle, fits, _⟩ := at_op
  exact step_fails_at_operand idle fits (at_op.lookup injective) h

/-- The first data access that does not fit fails the step, `ip` past the instruction. -/
theorem State.AtOpcode.fails_at_data {a w : Nat} (operands : s.firstMisfit (s.operandAccesses op) = none)
    (h : s.firstMisfit (dataAccesses s (s.instrAt op)) = some (a, w)) :
    ∃ t, step s = .next t ∧ FailedFrom s t (s.byteAddr op.length) (.outOfBounds a w) := by
  have ⟨idle, fits, _⟩ := at_op
  exact ⟨_, step_data_misfit idle fits (at_op.lookup injective) operands h,
    State.failedFrom_failed (State.canRaise_of_firstMisfit (nameable_dataAccesses s _) h) _⟩

/-- When every access fits, the step has the whole effect from the post-fetch `ip`. -/
theorem State.AtOpcode.effect (operands : s.firstMisfit (s.operandAccesses op) = none)
    (data : s.firstMisfit (dataAccesses s (s.instrAt op)) = none) :
    ∃ t, step s = .next t ∧ Effect (s.setReg .ip (s.byteAddr op.length)) t (s.instrAt op) := by
  have ⟨idle, fits, _⟩ := at_op
  exact ⟨_, step_completes idle fits (at_op.lookup injective) operands data, effect_stepped idle op⟩

end

/-! ### An effect from the post-fetch `ip`, told from before the step -/

theorem State.getReg_postFetch (s : State) (n : Nat) (r : Reg) :
    (s.setReg .ip (s.byteAddr n)).getReg r = s.sourceValue n r :=
  s.getReg_setReg .ip r (s.byteAddr n)

section
variable {s t : State} {rs : List Reg} {p : Word} (h : KeepsBut rs (s.setReg .ip p) t)
include h

theorem KeepsBut.of_postFetch : KeepsBut (.ip :: rs) s t := by
  obtain ⟨regs, rest⟩ := h
  refine ⟨fun r hr => ?_, rest⟩
  obtain ⟨notIp, hr⟩ := not_or.1 (mt List.mem_cons.2 hr)
  rw [regs r hr, State.getReg_setReg_other s p notIp]

theorem KeepsBut.ip_of_postFetch (hip : .ip ∉ rs) : t.getReg .ip = p := by
  rw [h.getReg_eq hip, State.getReg_setReg_same]

end

/-! ### Data transfer (41) -/

/-- Settles O28: two fetches, no data access. -/
theorem stepOfMovLitReg : Obligations.StepOfMovLitReg := by
  intro s injective at_op
  refine ⟨fun fits1 => ?_, fun fits1 fits3 => ?_, fun fits1 fits3 => ?_⟩
  · exact at_op.fails_at_operand injective (State.firstMisfit_not_fits s fits1)
  · exact at_op.fails_at_operand injective (State.firstMisfit_second fits1 fits3)
  · obtain ⟨t, answer, value, kept, sfs, mem⟩ := at_op.effect injective (State.firstMisfit_pair fits1 fits3) rfl
    exact ⟨t, answer, value, fun ne => kept.ip_of_postFetch (by simpa using ne.symm), kept.of_postFetch, sfs, mem⟩

/-- Settles O29: two fetches, no data access; a source `ip` reads its post-fetch value. -/
theorem stepOfMovRegReg : Obligations.StepOfMovRegReg := by
  intro s injective at_op
  refine ⟨fun fits1 => ?_, fun fits1 fits2 => ?_, fun fits1 fits2 => ?_⟩
  · exact at_op.fails_at_operand injective (State.firstMisfit_not_fits s fits1)
  · exact at_op.fails_at_operand injective (State.firstMisfit_second fits1 fits2)
  · obtain ⟨t, answer, value, kept, sfs, mem⟩ := at_op.effect injective (State.firstMisfit_pair fits1 fits2) rfl
    exact ⟨t, answer, value.trans (s.getReg_postFetch 3 _), fun ne => kept.ip_of_postFetch (by simpa using ne.symm),
      kept.of_postFetch, sfs, mem⟩

/-- Settles O30: two fetches, then the write. -/
theorem stepOfMovRegMem : Obligations.StepOfMovRegMem := by
  intro s injective at_op
  refine ⟨fun fits1 => ?_, fun fits1 fits2 => ?_, fun fits1 fits2 data => ?_, fun fits1 fits2 data => ?_⟩
  · exact at_op.fails_at_operand injective (State.firstMisfit_not_fits s fits1)
  · exact at_op.fails_at_operand injective (State.firstMisfit_second fits1 fits2)
  · exact at_op.fails_at_data injective (State.firstMisfit_pair fits1 fits2) (State.firstMisfit_not_fits s data)
  · obtain ⟨t, answer, word, others, kept, sfs⟩ :=
      at_op.effect injective (State.firstMisfit_pair fits1 fits2) (State.firstMisfit_singleton data)
    rw [State.getReg_postFetch] at word
    exact ⟨t, answer, word, others, kept.ip_of_postFetch List.not_mem_nil, kept.of_postFetch, sfs⟩

/-- Settles O31: two fetches, then the read. -/
theorem stepOfMovMemReg : Obligations.StepOfMovMemReg := by
  intro s injective at_op
  refine ⟨fun fits1 => ?_, fun fits1 fits3 => ?_, fun fits1 fits3 data => ?_, fun fits1 fits3 data => ?_⟩
  · exact at_op.fails_at_operand injective (State.firstMisfit_not_fits s fits1)
  · exact at_op.fails_at_operand injective (State.firstMisfit_second fits1 fits3)
  · exact at_op.fails_at_data injective (State.firstMisfit_pair fits1 fits3) (State.firstMisfit_not_fits s data)
  · obtain ⟨t, answer, value, kept, sfs, mem⟩ :=
      at_op.effect injective (State.firstMisfit_pair fits1 fits3) (State.firstMisfit_singleton data)
    exact ⟨t, answer, value, fun v word => value.trans (wordValue_of_wordAt word),
      fun ne => kept.ip_of_postFetch (by simpa using ne.symm), kept.of_postFetch, sfs, mem⟩

/-! ### Arithmetic and the branch (42, 43) -/

/-- Settles O32: two fetches, no data access; an addend `ip` reads its post-fetch value. -/
theorem stepOfAddRegReg : Obligations.StepOfAddRegReg := by
  intro s injective at_op
  refine ⟨fun fits1 => ?_, fun fits1 fits2 => ?_, fun fits1 fits2 => ?_⟩
  · exact at_op.fails_at_operand injective (State.firstMisfit_not_fits s fits1)
  · exact at_op.fails_at_operand injective (State.firstMisfit_second fits1 fits2)
  · obtain ⟨t, answer, sum, kept, sfs, mem⟩ := at_op.effect injective (State.firstMisfit_pair fits1 fits2) rfl
    rw [State.getReg_postFetch, State.getReg_postFetch] at sum
    exact ⟨t, answer, sum, kept.ip_of_postFetch (by decide), kept.of_postFetch, sfs, mem⟩

/-- Settles O33: two fetches, no data access; the next step's opcode fetch checks the target. -/
theorem stepOfJmpNotEq : Obligations.StepOfJmpNotEq := by
  intro s injective at_op
  refine ⟨fun fits1 => ?_, fun fits1 fits3 => ?_, fun fits1 fits3 => ?_⟩
  · exact at_op.fails_at_operand injective (State.firstMisfit_not_fits s fits1)
  · exact at_op.fails_at_operand injective (State.firstMisfit_second fits1 fits3)
  · obtain ⟨t, answer, ip, kept, sfs, mem⟩ := at_op.effect injective (State.firstMisfit_pair fits1 fits3) rfl
    have taken (ne : s.operandWord 1 ≠ s.getReg .acc) : t.getReg .ip = s.operandWord 3 := ip.trans (if_neg ne)
    refine ⟨t, answer, taken, fun eq => ip.trans (if_pos eq), fun ne outside => ?_, kept.of_postFetch.mono (by simp),
      sfs, mem⟩
    have ⟨idle, _⟩ := at_op
    have ⟨next, _⟩ := firstFetchThatDoesNotFitFailsTheStep t (kept.run_eq.trans idle)
    rw [taken ne, State.Fits, kept.cfg_eq] at next
    exact next outside

/-! ### The stack (44) -/

/-- Settles O34: one fetch, then the push. -/
theorem stepOfPshLit : Obligations.StepOfPshLit := by
  intro s injective at_op
  refine ⟨fun fits1 => ?_, fun fits1 data => ?_, fun fits1 data => ?_⟩
  · exact at_op.fails_at_operand injective (State.firstMisfit_not_fits s fits1)
  · exact at_op.fails_at_data injective (State.firstMisfit_singleton fits1) (State.firstMisfit_not_fits s data)
  · obtain ⟨t, answer, word, others, sp, sfs, kept⟩ :=
      at_op.effect injective (State.firstMisfit_singleton fits1) (State.firstMisfit_singleton data)
    exact ⟨t, answer, word, others, sp, sfs, kept.ip_of_postFetch (by decide), kept.of_postFetch⟩

/-- Settles O35: one fetch, then the push; a source `ip` reads its post-fetch value, and `sp` its old one. -/
theorem stepOfPshReg : Obligations.StepOfPshReg := by
  intro s injective at_op
  refine ⟨fun fits1 => ?_, fun fits1 data => ?_, fun fits1 data => ?_⟩
  · exact at_op.fails_at_operand injective (State.firstMisfit_not_fits s fits1)
  · exact at_op.fails_at_data injective (State.firstMisfit_singleton fits1) (State.firstMisfit_not_fits s data)
  · obtain ⟨t, answer, word, others, sp, sfs, kept⟩ :=
      at_op.effect injective (State.firstMisfit_singleton fits1) (State.firstMisfit_singleton data)
    rw [State.getReg_postFetch s _ (s.operandReg 1)] at word
    exact ⟨t, answer, word, others, sp, sfs, kept.ip_of_postFetch (by decide), kept.of_postFetch⟩

/-- Settles O36: one fetch, then the pop's read at the unbounded `sp + 2`. -/
theorem stepOfPop : Obligations.StepOfPop := by
  intro s injective at_op
  refine ⟨fun fits1 => ?_, fun fits1 data => ?_, fun fits1 data => ?_⟩
  · exact at_op.fails_at_operand injective (State.firstMisfit_not_fits s fits1)
  · exact at_op.fails_at_data injective (State.firstMisfit_singleton fits1) (State.firstMisfit_not_fits s data)
  · obtain ⟨t, answer, value, sp, sfs, kept, mem⟩ :=
      at_op.effect injective (State.firstMisfit_singleton fits1) (State.firstMisfit_singleton data)
    exact ⟨t, answer, value, sp, fun ne => kept.ip_of_postFetch (by simpa using ne.symm), sfs, kept.of_postFetch, mem⟩

/-! ### The call (45) -/

/-- Settles O37: one fetch, then the ten pushes of the frame. -/
theorem stepOfCalLit : Obligations.StepOfCalLit := by
  intro s injective at_op
  refine ⟨fun fits1 => ?_, fun fits1 k hk misfit first => ?_, fun fits1 fits => ?_⟩
  · exact at_op.fails_at_operand injective (State.firstMisfit_not_fits s fits1)
  · exact at_op.fails_at_data injective (State.firstMisfit_singleton fits1)
      (State.firstMisfit_frameAccesses_eq_some hk (Nat.not_le.1 misfit) first)
  · obtain ⟨t, answer, frame, sp, fp, ip, sfs, kept⟩ :=
      at_op.effect injective (State.firstMisfit_singleton fits1) (State.firstMisfit_frameAccesses_eq_none fits)
    obtain ⟨w0, w1, w2, w3, w4, w5, w6, w7, w8, w9, others⟩ := frame
    exact ⟨t, answer, w0, w1, w2, w3, w4, w5, w6, w7, w8, w9, sp, fp, sfs, ip, kept.of_postFetch.mono (by simp), others⟩

end Sys2Proof.Machine
end

section
/-! What no instruction does, and what every step keeps, as 10_state §3 to §8 states them: the tables of writes, SFS
hidden from all but calls, and the machine's invariant. -/

namespace Sys2Proof.Machine

/-! ### What an instruction may write (R27, R36; 20_memory R59) -/

theorem Effect.sfs_kept {s t : State} {i : Instr} (h : Effect s t i) (hi : i.op.writesSfs = false) : t.sfs = s.sfs := by
  cases i with
  | movLitReg | movRegReg | movMemReg | addRegReg | jmpNotEq =>
    obtain ⟨_, _, sfs, _⟩ := h
    exact sfs
  | movRegMem =>
    obtain ⟨_, _, _, sfs⟩ := h
    exact sfs
  | pshLit | pshReg | pop | calLit => cases hi

/-- An instruction that writes no memory leaves the very same memory. -/
theorem State.completed_mem_kept (s : State) {i : Instr} (hi : i.op.writesMemory = false) :
    (s.completed i).mem = s.mem := by
  cases i with
  | movLitReg | movRegReg | movMemReg | addRegReg | jmpNotEq | pop => rfl
  | movRegMem | pshLit | pshReg | calLit => cases hi

/-- Settles O45: a completed instruction writes what its effect says, and a failed one nothing of these. -/
theorem instructionsWriteOnlyWhatTheyMay : Obligations.InstructionsWriteOnlyWhatTheyMay := by
  intro i s t answer
  rcases exec_cases i s with ⟨_, completes⟩ | ⟨a, w, _, raises⟩
  · cases completes.symm.trans answer
    have effect := effect_completed s i
    obtain ⟨regs, cfg, _⟩ := effect.keeps
    exact ⟨regs, effect.sfs_kept, s.completed_mem_kept, cfg⟩
  · cases raises.symm.trans answer
    exact ⟨fun r _ => s.getReg_raise _ r, fun _ => s.raise_sfs _, fun _ => s.raise_mem _, s.raise_cfg _⟩

/-! ### SFS is hidden from all but calls (R28) -/

/-- The outcome of `o` seen from a state whose SFS is `v` instead of `sfs`: SFS has moved by the same amount. -/
def MovesSfsAlike (s t : State) (v : Word) (o : Host.Outcome State Fault Refusal) : Prop :=
  ∃ d, t.sfs = s.sfs + d ∧ o = .next (t.setSfs (v + d))

/-- A state whose SFS an operation does not touch differs, from another SFS, in SFS alone. -/
theorem MovesSfsAlike.unmoved {s t : State} {v : Word} {o : Host.Outcome State Fault Refusal} (kept : t.sfs = s.sfs)
    (h : o = .next (t.setSfs v)) : MovesSfsAlike s t v o :=
  ⟨0, by rw [kept, add_zero], by rw [add_zero, h]⟩

theorem State.raise_setSfs (s : State) (v : Word) (e : StepError) : (s.setSfs v).raise e = (s.raise e).setSfs v := by
  cases e <;> rfl

theorem State.pushed_setSfs (s : State) (v w : Word) : (s.setSfs v).pushed w = (s.pushed w).setSfs (sum16 v 2) := rfl

theorem State.popped_setSfs (s : State) (v : Word) : (s.setSfs v).popped = s.popped.setSfs (diff16 v 2) := rfl

theorem State.completed_setSfs (s : State) (v : Word) {i : Instr} (noCall : ∀ target, i ≠ .calLit target) :
    MovesSfsAlike s (s.completed i) v (.next ((s.setSfs v).completed i)) := by
  cases i with
  | movLitReg | movRegReg | movRegMem | movMemReg | addRegReg | jmpNotEq => exact .unmoved rfl rfl
  | pshLit | pshReg =>
    refine ⟨2, ?_, ?_⟩
    · rw [State.completed, State.pushed_sfs, sum16_eq]
    · rw [State.completed, State.pushed_setSfs, sum16_eq]
      rfl
  | pop d =>
    refine ⟨-2, ?_, ?_⟩
    · rw [State.completed, State.setReg_sfs, State.popped_sfs, diff16_eq, sub_eq_add_neg]
    · rw [State.completed, State.popped_setSfs, diff16_eq, sub_eq_add_neg]
      rfl
  | calLit target => exact absurd rfl (noCall target)

/-- The checks and the meaning of an instruction that is no call do not read SFS. -/
theorem exec_setSfs {s t : State} {i : Instr} (v : Word) (noCall : ∀ target, i ≠ .calLit target)
    (answer : exec i s = .next t) : MovesSfsAlike s t v (exec i (s.setSfs v)) := by
  have sameAccesses : dataAccesses (s.setSfs v) i = dataAccesses s i := by cases i <;> rfl
  rcases exec_cases i s with ⟨fits, completes⟩ | ⟨a, w, misfit, raises⟩
  · cases completes.symm.trans answer
    rw [← sameAccesses] at fits
    rw [exec_completed (s := s.setSfs v) fits]
    exact s.completed_setSfs v noCall
  · cases raises.symm.trans answer
    rw [← sameAccesses] at misfit
    rw [exec_raise (s := s.setSfs v) misfit, State.raise_setSfs]
    exact .unmoved (s.raise_sfs _) rfl

theorem State.leaveStep_setSfs (s : State) (v : Word) : (s.setSfs v).leaveStep = s.leaveStep.setSfs v := by
  unfold State.leaveStep
  rw [State.setSfs_run]
  split <;> rfl

/-- Fetching does not read SFS either, so a step that fetches no call moves it alike. -/
theorem step_setSfs {s t : State} (v : Word) (noCall : ∀ target ip, s.fetchInstr ≠ .ok (.calLit target) ip)
    (answer : step s = .next t) : MovesSfsAlike s t v (step (s.setSfs v)) := by
  have sameFetch : (s.setSfs v).fetchInstr = s.fetchInstr := rfl
  rcases step_cases answer with ⟨run, rfl⟩ | ⟨run, e, ip, fetch, rfl⟩ | ⟨run, i, ip, u, fetch, exec, rfl⟩
  · exact .unmoved rfl (step_faulted (s := t.setSfs v) run)
  · refine .unmoved (State.raise_sfs _ e) ?_
    rw [step_fetch_failed (s := s.setSfs v) run (sameFetch.trans fetch), ← State.raise_setSfs]
    rfl
  · obtain ⟨d, moved, exec'⟩ := exec_setSfs v (fun target e => noCall target ip (e ▸ fetch)) exec
    refine ⟨d, by rw [State.leaveStep_sfs, moved, State.enterStep_sfs], ?_⟩
    rw [step_fetched (s := s.setSfs v) run (sameFetch.trans fetch), ← State.leaveStep_setSfs]
    exact congrArg finishStep exec'

/-- Settles O46: the two steps answer states that differ in SFS alone, which has moved by the same amount. -/
theorem sfsIsHiddenFromAllButCalls : Obligations.SfsIsHiddenFromAllButCalls := by
  intro s t v noCall answer
  obtain ⟨d, moved, answer'⟩ := step_setSfs v noCall answer
  refine ⟨_, answer', (KeepsBut.refl [] t).setSfs _, fun _ => rfl, ?_⟩
  rw [State.setSfs_sfs, moved, add_sub_cancel_left, add_sub_cancel_left]

/-! ### The invariant -/

/-- Memory after a completed instruction has whatever every word write in bounds keeps. -/
theorem State.completed_mem {P : Memory → Prop} {s : State} {i : Instr}
    (write : ∀ m a v, a + 2 ≤ s.cfg.size → P m → P (Memory.writeWord m a v))
    (fits : s.firstMisfit (dataAccesses s i) = none) (h : P s.mem) : P (s.completed i).mem := by
  have fit := State.firstMisfit_eq_none.1 fits
  cases i with
  | movLitReg | movRegReg | movMemReg | addRegReg | jmpNotEq | pop => exact h
  | movRegMem src a => exact write _ _ _ (fit _ List.mem_cons_self) h
  | pshLit | pshReg =>
    rw [State.completed, State.pushed_mem]
    exact write _ _ _ (fit _ List.mem_cons_self) h
  | calLit target =>
    have pushes : s.pushAll s.frame = .ok (s.pushedAll s.frame) := by
      rw [State.pushAll_eq_checked s (by rw [State.frame_length]; decide)]
      exact State.checked_ok _ fits
    rw [State.completed, State.setReg_mem, State.framed_mem]
    exact State.pushAll_mem write rfl pushes h

theorem State.Inv.failed {s : State} {e : StepError} (h : s.Inv) (raised : s.CanRaise e) (ip : Word) :
    (s.failed ip e).Inv := by
  obtain ⟨wf, canonical, below, _⟩ := h
  have latched : (s.failed ip e).Latched e := State.latched_raise (s := s.enterStep ip) raised
  have cfg : (s.failed ip e).cfg = s.cfg := State.raise_cfg _ e
  have mem : (s.failed ip e).mem = s.mem := State.raise_mem _ e
  have run : (s.failed ip e).run = .faulted := State.raise_run _ e
  rw [State.Inv, State.LatchInv, run, cfg, mem]
  refine ⟨wf, canonical, below, ?_⟩
  cases e with
  | outOfBounds a w => exact .inl ⟨a, w, latched, raised⟩
  | invalidOpcode b p => exact .inr ⟨b, p, latched, raised⟩

theorem State.Inv.stepped {s : State} {op : Op} (h : s.Inv) (idle : s.run = .idle)
    (fits : s.firstMisfit (dataAccesses s (s.instrAt op)) = none) : (s.stepped op).Inv := by
  obtain ⟨wf, canonical, below, latch⟩ := h
  obtain ⟨_, cfg, run, code, _⟩ := (effect_stepped idle op).keeps
  rw [State.LatchInv, idle] at latch
  rw [State.Inv, State.LatchInv, run, State.setReg_run, idle, cfg]
  rw [← dataAccesses_enterStep s (s.byteAddr op.length)] at fits
  have write {P : Memory → Prop} (hw : ∀ m a v, a + 2 ≤ s.cfg.size → P m → P (Memory.writeWord m a v))
      (hp : P s.mem) : P (s.stepped op).mem := by
    rw [State.stepped, State.leaveStep_mem]
    exact State.completed_mem (s := s.enterStep _) hw fits hp
  exact ⟨wf, write (P := Memory.wf) (fun _ a v _ hm => Memory.wf_writeWord hm a v) canonical,
    write (P := fun m => m.below s.cfg.size) (fun _ _ v ha hm => Memory.below_writeWord hm ha v) below,
    code.trans latch⟩

/-- Settles O47: a step in Faulted changes nothing; from Idle it fails with an error it can raise, or completes. -/
theorem stepKeepsTheInvariant : Obligations.StepKeepsTheInvariant := by
  intro s t inv answer
  cases run : s.run with
  | executing =>
    rw [step_executing run] at answer
    cases answer
  | faulted =>
    rw [step_faulted run] at answer
    cases answer
    exact inv
  | idle =>
    cases stepGoes_of_step run answer with
    | misfit ip first => exact inv.failed (State.canRaise_of_firstMisfit (nameable_accesses s) first) ip
    | noOpcode fits unlisted => exact inv.failed (State.canRaise_invalidOpcode (State.opcode_fits fits) unlisted) _
    | completes fits opcode =>
      rw [State.accesses_of_opcode opcode] at fits
      refine inv.stepped run (State.firstMisfit_eq_none.2 fun f hf => ?_)
      exact State.firstMisfit_eq_none.1 fits f (List.mem_cons_of_mem _ (List.mem_append_right _ hf))

theorem Memory.below_nil (n : Nat) : Memory.below [] n := fun _ hc => nomatch hc

/-- Settles O48: the reference parameters are admitted, memory lists nothing, and FAULT_CODE is 0 in Idle. -/
theorem resetMeetsTheInvariant : Obligations.ResetMeetsTheInvariant :=
  ⟨by decide, Memory.wf_nil, Memory.below_nil _, rfl⟩

/-- Settles O49: a launch is a reset beside the loaded image, which fits; a reset in mid-run leaves memory as it was. -/
theorem launchAndResetMeetTheInvariant : Obligations.LaunchAndResetMeetTheInvariant := by
  constructor
  · intro c image sets l launched
    obtain ⟨⟨wf, fits⟩, rfl⟩ := launch_eq_next.1 launched
    obtain ⟨cfg, loaded, _⟩ := Setup.portSets_spec sets { cfg := c, image := image, regs := RegFile.reset c.size }
    have inside : 0 + image.length ≤ c.size := by rwa [Nat.zero_add]
    rw [Setup.start, cfg, loaded]
    exact ⟨wf, Memory.wf_load Memory.wf_nil 0 image, Memory.below_load (Memory.below_nil _) 0 image inside, rfl⟩
  · rintro s ⟨wf, canonical, below, _⟩
    exact ⟨wf, canonical, below, rfl⟩

end Sys2Proof.Machine
end

section
/-! Reset, launch, runs and the host's reads, as 70_reset_and_hazards §1 to §6 and 60_exceptions §8 state them. -/

namespace Sys2Proof.Machine

/-! ### Runs (R213, R215) -/

/-- Settles O40: each request in Faulted answers the same state. -/
theorem faultedStaysAsItIs : Obligations.FaultedStaysAsItIs := by
  intro k s faulted
  induction k with
  | zero => rfl
  | succ k ih =>
    rw [stepFor, step_faulted faulted]
    exact ih

/-- Settles O56: by induction on the requests; where the run ends early, the rest of them change nothing. -/
theorem runEndsAtTheFirstFault : Obligations.RunEndsAtTheFirstFault := by
  intro k
  induction k with
  | zero => exact fun _ => rfl
  | succ k ih =>
    intro s
    rw [runFor, stepFor]
    cases step s with
    | next t =>
      by_cases faulted : t.run = .faulted
      · simp only [if_pos faulted, faultedStaysAsItIs k t faulted]
      · simp only [if_neg faulted, ih t]
    | fault r => rfl
    | refused r => rfl

/-! ### Reset (R200) -/

/-- The register values of reset: `sp` and `fp` at N - 2, the others 0. -/
theorem RegFile.get_reset (n : Nat) (r : Reg) :
    (RegFile.reset n).get r = if r = .sp ∨ r = .fp then BitVec.ofNat 16 (n - 2) else 0 := by
  cases r <;> rfl

/-- Settles O50: `State.reset` is a reset with N = 65536 beside a memory that lists nothing. -/
theorem resetLeavesTheGivenValues : Obligations.ResetLeavesTheGivenValues :=
  ⟨RegFile.get_reset 65536, rfl, rfl, rfl, fun _ => rfl⟩

/-- Settles O51: `resetCore` sets the core from N alone, and a step in Faulted answers the same state. -/
theorem resetIsTheWayOutOfFaulted : Obligations.ResetIsTheWayOutOfFaulted := by
  intro s
  refine ⟨fun r notSp notFp => ?_, rfl, rfl, rfl, rfl, rfl, rfl, rfl, step_faulted⟩
  exact (RegFile.get_reset s.cfg.size r).trans (if_neg (not_or.2 ⟨notSp, notFp⟩))

/-! ### Launch (R201, R204, R216) -/

/-- Memory after the load is the image, then zeros (R204). -/
theorem Memory.read_load_nil (image : List Byte) (a : Nat) : (Memory.load [] 0 image).read a = image.getD a 0 := by
  rw [Memory.read_load, Nat.zero_add, Nat.sub_zero]
  split
  case isTrue => rfl
  case isFalse outside => rw [List.getD_eq_default _ _ (by omega), Memory.read_nil]

/-- Settles O52: the launch's core is the reset beside the loaded image, its registers what the last sets made them. -/
theorem launchPlacesTheImageAndResetsTheCore : Obligations.LaunchPlacesTheImageAndResetsTheCore := by
  intro c image sets
  constructor
  · constructor
    · rintro ⟨l, launched⟩
      exact (launch_eq_next.1 launched).1
    · exact fun admitted => ⟨_, launch_eq_next.2 ⟨admitted, rfl⟩⟩
  · intro l launched
    obtain ⟨_, rfl⟩ := launch_eq_next.1 launched
    obtain ⟨cfg, loaded, reports, regs⟩ :=
      Setup.portSets_spec sets { cfg := c, image := image, regs := RegFile.reset c.size }
    refine ⟨fun a => ?_, cfg, rfl, rfl, rfl, fun r => ?_, reports⟩
    · show (Memory.load [] 0 (Setup.image _)).read a = image.getD a 0
      rw [loaded, Memory.read_load_nil]
    · simp only [← RegFile.get_reset]
      exact regs r

/-! ### The register port (R172, R188) -/

/-- A launch with a single set of a register is the launch with none, and then that register written. -/
theorem Setup.portSets_register (u : Setup) {i : BitVec 4} {r : Reg} (hi : i.toNat = r.index) (v : Word) :
    u.portSets [(i, v)] = ({ u with regs := u.regs.set r v }, [none]) := by
  simp only [Setup.portSets, Setup.portSet, portRegister_index hi]

/-- A single set under a name of no register is reported, and changes nothing. -/
theorem Setup.portSets_unknown (u : Setup) {i : BitVec 4} (hi : 12 ≤ i.toNat) (v : Word) :
    u.portSets [(i, v)] = (u, [some .unknownRegister]) := by
  simp only [Setup.portSets, Setup.portSet, portRegister_none hi]

/-- Settles O55: the port resolves a register's index to that register and 12..15 to none, for a read and for a set. -/
theorem registerPortKnowsTwelveNames : Obligations.RegisterPortKnowsTwelveNames := by
  constructor
  · intro s i notExecuting
    constructor
    · intro r hi
      rw [State.portGet, State.inspect_of_ne_executing _ notExecuting, portRegister_index hi]
    · intro hi
      rw [State.portGet, State.inspect_of_ne_executing _ notExecuting, portRegister_none hi]
  · intro c image i v l m launched set
    obtain ⟨_, rfl⟩ := launch_eq_next.1 launched
    obtain ⟨_, rfl⟩ := launch_eq_next.1 set
    constructor
    · intro r hi
      rw [Setup.portSets_register _ hi]
      exact ⟨rfl, State.getReg_setReg_same (Setup.start _) r v, (KeepsBut.refl [r] _).setReg List.mem_cons_self v, rfl,
        rfl⟩
    · intro hi
      rw [Setup.portSets_unknown _ hi]
      exact ⟨rfl, rfl⟩

/-! ### Windows of memory, RUN and the latch (R187, R214) -/

/-- Settles O54: outside a step the window's bounds check decides, and its bytes are read in order. -/
theorem dumpMemoryWindowReadsOrReports : Obligations.DumpMemoryWindowReadsOrReports := by
  intro s a n notExecuting
  refine ⟨fun fits => ⟨(List.range n).map fun k => s.mem.read (a + k), ?_, ?_, fun k hk => ?_⟩, fun out => ?_, rfl⟩
  · rw [State.dumpMemoryWindow, State.inspect_of_ne_executing _ notExecuting, if_pos fits]
  · rw [List.length_map, List.length_range]
  · rw [List.getElem?_map, List.getElem?_range hk, Option.map_some]
  · rw [State.dumpMemoryWindow, State.inspect_of_ne_executing _ notExecuting, if_neg (Nat.not_le.2 out)]

/-- Settles O58: outside a step the reads answer RUN and the latch's fields, of which a latched error fixes its own. -/
theorem hostReadsRunAndTheLatch : Obligations.HostReadsRunAndTheLatch := by
  intro s notExecuting
  refine ⟨State.inspect_of_ne_executing _ notExecuting, s.faultAddr, s.faultWidth, s.faultOpcode,
    State.inspect_of_ne_executing _ notExecuting, fun e latched => ?_⟩
  cases e with
  | outOfBounds | invalidOpcode => exact latched

end Sys2Proof.Machine
end
